-- ==== Sys2Proof/Word.lean ====
section
/-! DEFINITION. The two word types of the block (00_scope.md R8): a byte and a 16-bit register value.
All arithmetic of the spec is on unsigned integers, so wider quantities are plain `Nat`. -/

namespace Sys2Proof

/-- "A byte is an unsigned 8-bit value, 0 to 255" (R8). -/
abbrev Byte := BitVec 8

/-- A 16-bit control register value (10_state.md R21, R24, R28, R29). -/
abbrev Half := BitVec 16

end Sys2Proof
end

