-- ==== Sys2Proof/Config.lean ====
section
/-! DEFINITION. What fixes an instance of the block (00_scope.md R6): its identity, its buffer capacity, the open
parameter `EVT_WHILE_BUSY` and five numbers. "They are arguments of the model, not state: no operation changes them": a
`Params` stands in every State and every statement about a State is about every instance. -/

namespace Sys2Proof

/-- `MYMAC`: six bytes, `b0` "is the first byte on the wire" (R6). -/
structure Mac where
  b0 : Byte
  b1 : Byte
  b2 : Byte
  b3 : Byte
  b4 : Byte
  b5 : Byte
deriving DecidableEq, Repr

/-- `MYIP`: four bytes, `b0` "is the first byte on the wire (192 in 192.168.0.200)" (R6). -/
structure Ip where
  b0 : Byte
  b1 : Byte
  b2 : Byte
  b3 : Byte
deriving DecidableEq, Repr

/-- `BUF_CAP`, "43 to 1500 inclusive" (R6, 92 D5). The bounds are part of the value, so no instance outside them
can be written down (log entry 15). -/
structure BufCap where
  bytes : Nat
  atLeast43 : 43 ≤ bytes
  atMost1500 : bytes ≤ 1500
deriving DecidableEq, Repr

/-- `EVT_WHILE_BUSY`, OPEN in the spec (R6, 60_exceptions.md R207, 92 D20). -/
inductive EvtWhileBusy where
  | ignored
  | latched
deriving DecidableEq, Repr

/-- The numbers R6 names with one value each. They are "named parameters so a model can study stricter gates"
(92 D7), `ARP_MIN_LEN` "so that a model can also be run with 42" (90_conflicts.md C4); log entry 20. -/
structure Numbers where
  /-- `ARP_MIN_LEN` -/
  arpMinLen : Nat
  /-- `IP_MIN_LEN` -/
  ipMinLen : Nat
  /-- `ARP_REPLY_LEN` -/
  arpReplyLen : Half
  /-- `REPLY_TTL` -/
  replyTtl : Byte
  /-- `PLEN_ADJ` -/
  plenAdj : Nat
deriving DecidableEq, Repr

/-- The values R6 gives. -/
def Numbers.r6 : Numbers where
  arpMinLen := 14
  ipMinLen := 34
  arpReplyLen := 42
  replyTtl := 64
  plenAdj := 8

/-- The parameters of one instance (R6). -/
structure Params where
  mymac : Mac
  myip : Ip
  bufCap : BufCap
  evtWhileBusy : EvtWhileBusy
  numbers : Numbers
deriving DecidableEq, Repr

/-- The "common parameters of every derived vector" (95_test_vectors.md): `MYMAC = 02 00 00 00 00 C8`,
`MYIP = C0 A8 00 C8`, `BUF_CAP = 64`, "`EVT_WHILE_BUSY` either value".
The five numbers have R6's values. For the rest DESIGN CHOICE (log entries 1, 2): R6 allows any; this is the instance
`State.reset` takes. Unsafe. -/
def Params.common : Params where
  mymac := ⟨0x02, 0x00, 0x00, 0x00, 0x00, 0xC8⟩
  myip := ⟨0xC0, 0xA8, 0x00, 0xC8⟩
  bufCap := ⟨64, by decide, by decide⟩
  evtWhileBusy := .ignored
  numbers := Numbers.r6

end Sys2Proof
end

