-- ==== Sys2Proof/Machine/HostSyntax.lean ====
section
/-! DEFINITION. The host's side of the interface as plain data: the actions of the host-program syntax
(30_encoding.md R86; 44_host_access.md), the asynchronous inputs (60_exceptions.md R206, 70_reset_and_hazards.md
R230), the chip's queue of received frames as `rx` sees it (44_host_access.md R181) and the block's outputs
(60_exceptions.md R209). -/

namespace Sys2Proof.Machine

/-- A frame queued in the chip (R181): "read its 6-byte header (next-frame pointer, length, status)". `bytes` is
the frame as stored, with the trailing four CRC bytes; the declared length is their number. -/
structure QueuedFrame where
  next : Nat
  crcValid : Bool
  bytes : List Byte
deriving DecidableEq, Repr

/-- One action of the world outside the block. -/
inductive Action where
  /-- `LOAD n: data`, `n` the number of bytes (R180) -/
  | load (data : List Byte)
  /-- `UNLOAD n` (R182) -/
  | unload (n : Nat)
  /-- `PEEK a` (R183) -/
  | peek (a : Nat)
  /-- `POKE a, v` (R183) -/
  | poke (a : Nat) (v : Byte)
  /-- `RD REG`, by register number (R184, 10_state.md R30) -/
  | rd (reg : Byte)
  /-- `WR REG, v`, by register number (R184); `CMD mnemonic` is `WR 0x00, code` (30_encoding.md R86) -/
  | wr (reg : Byte) (v : Half)
  /-- an edge of the event notification (60_exceptions.md R206) -/
  | evt
  /-- reset, that is construction (70_reset_and_hazards.md R230); `contents` is what the frame buffer then holds,
  which the spec leaves unspecified (93 U1): any bytes, offset 0 first (log entry 4) -/
  | reset (contents : List Byte)
  /-- a received frame joins the chip's queue (the network, 00_scope.md R15); it does not touch the block -/
  | arrive (f : QueuedFrame)
deriving DecidableEq, Repr

/-- When an action happens relative to a running `UPDATE` (log entry 5). -/
inductive Input where
  /-- the action happens at once, also between two steps of a running `UPDATE` -/
  | atOnce (a : Action)
  /-- the next line of a host program (R86): it waits for a running `UPDATE` to end -/
  | inTurn (a : Action)
  /-- the block takes one step before the next input -/
  | tick
deriving DecidableEq, Repr

/-- What the outside sees of the block (60_exceptions.md R209). -/
inductive Event where
  /-- `RD reg` returned `v` -/
  | read (reg : Byte) (v : Half)
  /-- `PEEK a` returned `v` -/
  | peeked (a : Nat) (v : Byte)
  /-- `UNLOAD` returned the bytes -/
  | unloaded (data : List Byte)
  /-- `rx` was called and returned length `n` -/
  | rx (n : Nat)
  /-- `tx` was called with the bytes -/
  | tx (data : List Byte)
deriving DecidableEq, Repr

end Sys2Proof.Machine
end

