-- ==== Sys2Proof/Syntax.lean ====
section
/-! DEFINITION. The instructions: one constructor per row of spec/opcode_table.json. Eight are commands written to
`CMD` (30_encoding.md R84); four are the frame classes, "the block's real instruction word" being the received
frame (R78 to R82, R87). None has an operand: "The operands ... are not encoded: they are the block's own `FB`,
`LEN`, `MYIP`, `MYMAC`" (R84). -/

namespace Sys2Proof

inductive Instr where
  /-- command 0x01, 40_classify.md R100 -/
  | isarp
  /-- command 0x02, 40_classify.md R101 -/
  | isipme
  /-- command 0x03, 40_classify.md R102 -/
  | isecho
  /-- command 0x04, 41_reply.md R120 -/
  | mkarp
  /-- command 0x05, 41_reply.md R125 -/
  | mkecho
  /-- command 0x06, 42_checksum.md R146 -/
  | csum
  /-- command 0x07, 43_poll.md R160 -/
  | step
  /-- command 0x08, 43_poll.md R165 -/
  | update
  /-- frame class ARP, 30_encoding.md R78 -/
  | frameArp
  /-- frame class ECHO, 30_encoding.md R80 -/
  | frameEcho
  /-- frame class IP_OTHER, 30_encoding.md R80 -/
  | frameIpOther
  /-- frame class NOT_ME, 30_encoding.md R82 -/
  | frameNotMe
deriving DecidableEq, Repr

end Sys2Proof
end

