-- ==== Sys2Proof/WellFormed.lean ====
section
/-! DEFINITION. Well-formedness. An instruction has no operand, so what is checked is the word it is carried by
(a command byte, R85; a frame, 00_scope.md R15), the instance (R6) and each host action (60_exceptions.md R202: the
causes of `raise Err` that an action shows by itself). -/

namespace Sys2Proof

/-- The instruction word as the hardware presents it: a byte written to `CMD` (R85), or the frame in the buffer, of
length `LEN`, `bytes` being the buffer from offset 0 (the offsets at or above `LEN` included, 10_state.md R23). -/
inductive Fetched where
  | command (code : Byte)
  | frame (len : Nat) (bytes : List Byte)
deriving DecidableEq, Repr

/-- Whether the instruction is a `CMD` row of the opcode table (R87). -/
def Instr.isCommand : Instr → Bool
  | .isarp => true
  | .isipme => true
  | .isecho => true
  | .mkarp => true
  | .mkecho => true
  | .csum => true
  | .step => true
  | .update => true
  | .frameArp => false
  | .frameEcho => false
  | .frameIpOther => false
  | .frameNotMe => false

/-- "The codes 0x00 and 0x09 to 0xFF are reserved" (R85). -/
def commandLegal (code : Byte) : Bool :=
  decide (1 ≤ code.toNat) && decide (code.toNat ≤ 8)

/-- "a frame is any byte sequence of any length from 1 to `BUF_CAP-1`" (00_scope.md R15); the buffer holds `BUF_CAP`
bytes (10_state.md R20), of which the decoder looks at offsets 0 to 41. -/
def Fetched.wellFormed (p : Params) : Fetched → Bool
  | .command code => commandLegal code
  | .frame len bytes => decide (1 ≤ len) && decide (len ≤ p.bufCap.bytes - 1) && decide (42 ≤ bytes.length)
      && decide (bytes.length ≤ p.bufCap.bytes)

/-- The numbers of the instance fit its buffer, as R6's values do (`Numbers.r6`, `BUF_CAP >= 43`): an IP frame is not
empty, and a resolution reply has a length `tx` accepts, 1 to `BUF_CAP-1` (44_host_access.md R185). -/
def Params.numbersOk (p : Params) : Bool :=
  decide (1 ≤ p.numbers.ipMinLen) && decide (1 ≤ p.numbers.arpReplyLen.toNat)
    && decide (p.numbers.arpReplyLen.toNat ≤ p.bufCap.bytes - 1)

/-- The registers the host may write without `raise Err` (10_state.md R30), `CMD` apart. -/
def plainWritable (reg : Byte) : Bool :=
  reg == 0x02 || reg == 0x05 || reg == 0x06 || reg == 0x07

/-- The action shows none of the causes of `raise Err` of 60_exceptions.md R202 that can be seen in the action alone
(a `CSUM` command is also checked against its operand registers, `Machine.csumLegal`), and is no `rx` queue entry
that 93 U6 excludes. -/
def Machine.Action.wellFormed (p : Params) : Machine.Action → Bool
  | .load data => decide (data.length < p.bufCap.bytes)
  | .unload n => decide (n ≤ p.bufCap.bytes)
  | .peek a => decide (a < p.bufCap.bytes)
  | .poke a _ => decide (a < p.bufCap.bytes)
  | .rd _ => true
  | .wr reg v => plainWritable reg || (reg == 0x00 && commandLegal (v.setWidth 8))
  | .evt => true
  | .reset _ => true
  | .arrive f => !f.crcValid || decide (4 ≤ f.bytes.length)

end Sys2Proof
end

