-- ==== Sys2Proof/Decode.lean ====
section
/-! DEFINITION. Decoder and encoder, from 30_encoding.md. A command byte decodes by its whole value (R84, R85); a
frame decodes by the first row of the frame table that matches (R87). The encoder is written from the same tables. -/

namespace Sys2Proof

/-- `MYMAC[0..5]`, in wire order. -/
def macBytes (m : Mac) : List Byte := [m.b0, m.b1, m.b2, m.b3, m.b4, m.b5]

/-- `MYIP[0..3]`, in wire order. -/
def ipBytes (a : Ip) : List Byte := [a.b0, a.b1, a.b2, a.b3]

/-- R84: the command codes. Reserved codes (R85) are refused: `none`. -/
def decodeCommand (code : Byte) : Option Instr :=
  match code.toNat with
  | 0x01 => some .isarp
  | 0x02 => some .isipme
  | 0x03 => some .isecho
  | 0x04 => some .mkarp
  | 0x05 => some .mkecho
  | 0x06 => some .csum
  | 0x07 => some .step
  | 0x08 => some .update
  | _ => none

/-- One `FRAME` row of the opcode table (R87): "a length gate, a list of offset-value pairs that must match, and a
list of offset ranges that must equal an identity parameter" (30_encoding.md section 3). Every range of the table is
four bytes that must equal `MYIP`, given by its first offset. -/
structure FrameRow where
  instr : Instr
  minLen : Nat
  pairs : List (Nat × Byte)
  equalsMyIp : List Nat
deriving DecidableEq, Repr

/-- The `FRAME` rows in the order of `fields.priority` (R81, R87): patterns R78, R80, R79, R82; the length gates are
those of the instance (00_scope.md R6). -/
def frameRows (n : Numbers) : List FrameRow :=
  [ { instr := .frameArp, minLen := n.arpMinLen, pairs := [(12, 0x08), (13, 0x06)], equalsMyIp := [38] },
    { instr := .frameEcho, minLen := n.ipMinLen,
      pairs := [(12, 0x08), (13, 0x00), (14, 0x45), (23, 0x01), (34, 0x08)], equalsMyIp := [30] },
    { instr := .frameIpOther, minLen := n.ipMinLen, pairs := [(12, 0x08), (13, 0x00), (14, 0x45)], equalsMyIp := [30] },
    { instr := .frameNotMe, minLen := 0, pairs := [], equalsMyIp := [] } ]

/-- R77: "equality of addresses is equality of every byte in order". -/
def equalsIpAt (ip : Ip) (fb : Nat → Byte) (a : Nat) : Bool :=
  fb a == ip.b0 && fb (a + 1) == ip.b1 && fb (a + 2) == ip.b2 && fb (a + 3) == ip.b3

/-- R87: when a frame matches a row. `fb a` is the buffer byte at offset `a`. -/
def FrameRow.matchesFrame (r : FrameRow) (ip : Ip) (len : Nat) (fb : Nat → Byte) : Bool :=
  decide (r.minLen ≤ len) && r.pairs.all (fun q => fb q.1 == q.2) && r.equalsMyIp.all (equalsIpAt ip fb)

/-- "the first matching row wins" (R87). Total: the last row matches every frame (R82). -/
def decodeFrame (p : Params) (len : Nat) (fb : Nat → Byte) : Instr :=
  match (frameRows p.numbers).find? (fun r => r.matchesFrame p.myip len fb) with
  | some r => r.instr
  | none => .frameNotMe

/-- Decode a fetched word of the instance `p`. -/
def decode (p : Params) : Fetched → Option Instr
  | .command code => decodeCommand code
  | .frame len bytes => some (decodeFrame p len (fun a => bytes.getD a 0))

/-- R84: the code of a command. The frame classes have none. -/
def encodeCommand : Instr → Option Byte
  | .isarp => some 0x01
  | .isipme => some 0x02
  | .isecho => some 0x03
  | .mkarp => some 0x04
  | .mkecho => some 0x05
  | .csum => some 0x06
  | .step => some 0x07
  | .update => some 0x08
  | .frameArp => none
  | .frameEcho => none
  | .frameIpOther => none
  | .frameNotMe => none

/-- The byte a row wants at offset `a`: its pattern byte, the byte of `MYIP` in its range, and `fill a` where the row
does not care. -/
def FrameRow.byteAt (r : FrameRow) (ip : Ip) (fill : Nat → Byte) (a : Nat) : Byte :=
  match r.pairs.find? (fun q => q.1 == a) with
  | some q => q.2
  | none =>
    match r.equalsMyIp.find? (fun o => decide (o ≤ a) && decide (a < o + 4)) with
    | some o => (ipBytes ip).getD (a - o) 0
    | none => fill a

/-- The 42 bytes of a frame of the row, its don't-care bytes taken from `fill`. -/
def FrameRow.frameBytes (r : FrameRow) (ip : Ip) (fill : Nat → Byte) : List Byte :=
  (List.range 42).map (r.byteAt ip fill)

/-- The word of an instruction: the command byte of R84, or a frame of 42 bytes with the class's pattern whose
don't-care bytes are `fill`. -/
def encodeWith (p : Params) (fill : Nat → Byte) (i : Instr) : Fetched :=
  match encodeCommand i with
  | some code => .command code
  | none =>
    match (frameRows p.numbers).find? (fun r => r.instr == i) with
    | some r => .frame 42 (r.frameBytes p.myip fill)
    | none => .frame 42 []

/-- The word of an instruction, every don't-care byte zero. -/
def encode (p : Params) (i : Instr) : Fetched := encodeWith p (fun _ => 0) i

/-- Byte `k` of an instruction word given as a number, bit 0 the least significant bit of the first byte; every bit
at or above `nbits` is 0. -/
def wordByte (nbits w k : Nat) : Byte := BitVec.ofNat 8 (w % 2 ^ nbits / 2 ^ (8 * k))

/-- The first 42 bytes of a frame whose bits are `w` (log entry 14). -/
def wordFrame (nbits w : Nat) : List Byte := (List.range 42).map (wordByte nbits w)

/-- The network address a frame carries where its class must carry `MYIP`: offsets 38 to 41 of a resolution frame
(R78), else 30 to 33 (R79). -/
def frameTargetIp (bytes : List Byte) : Ip :=
  let off := if bytes.getD 12 0 = 0x08 ∧ bytes.getD 13 0 = 0x06 then 38 else 30
  ⟨bytes.getD off 0, bytes.getD (off + 1) 0, bytes.getD (off + 2) 0, bytes.getD (off + 3) 0⟩

/-- What the decoder reads from a word of the opcode table: one byte is a command, anything longer a frame, laid out
byte 0 first. The table gives the bytes that must equal `MYIP` no bits of their own, so a frame word is read by an
instance it is addressed to (log entry 14). -/
def decodeTableWord (nbits w : Nat) : Option Instr :=
  if nbits ≤ 8 then decode Params.common (.command (wordByte nbits w 0))
  else
    let bytes := wordFrame nbits w
    decode { Params.common with myip := frameTargetIp bytes } (.frame 42 bytes)

end Sys2Proof
end

