-- ==== Sys2Proof/Machine/State.lean ====
section
/-! DEFINITION. The machine's state as plain data (10_state.md), the reasons a step can stop, and the state after
reset (10_state.md R33). `Block` is what the spec gives the block; `HostSide` is what the spec says is NOT state of
the block (R32): the chip's queue, and the plain data by which the outside acts on the block and sees it. -/

namespace Sys2Proof.Machine

/-- Bytes by offset, in one canonical form (`Memory.wf`, Machine/Ops.lean): offsets strictly rising, no entry equal
to what an unlisted offset reads as. -/
abbrev Memory := List Host.Cell

/-- `STATUS.CLASS` (R25): 0 `NOT_ME`, 1 `ARP`, 2 `ECHO`, 3 `IP_OTHER`. -/
inductive FrameClass where
  | notMe
  | arp
  | echo
  | ipOther
deriving DecidableEq, Repr

/-- Which atomic step of a running `UPDATE` is next (43_poll.md R165, 92 D22). -/
inductive UpdateStep where
  /-- call `rx` -/
  | rx
  /-- deliver the bytes `rx` returned -/
  | load (data : List Byte)
  /-- classify and build -/
  | step
  /-- call `tx` -/
  | tx
deriving DecidableEq, Repr

/-- `PHASE` (R26): IDLE, or RUN with the step that comes next. -/
inductive Phase where
  | idle
  | run (next : UpdateStep)
deriving DecidableEq, Repr

/-- The block. -/
structure Block where
  /-- the instance's parameters: `MYMAC`, `MYIP`, `CAP`, `EVT_WHILE_BUSY` (R22, R29, 00_scope.md R6) -/
  params : Params
  /-- `FB` (R20) -/
  fb : Memory
  /-- `LEN` (R21) -/
  len : Half
  /-- `RLEN` (R24) -/
  rlen : Half
  /-- `CSUMR` (R24) -/
  csumr : Half
  /-- `COFF` (R28) -/
  coff : Half
  /-- `CCNT` (R28) -/
  ccnt : Half
  /-- `CKIND` (R28): two bits are held -/
  ckind : BitVec 2
  /-- `STATUS.MATCH` (R25) -/
  matched : Bool
  /-- `STATUS.SEND` (R25) -/
  send : Bool
  /-- `STATUS.CLASS` (R25) -/
  cls : FrameClass
  /-- `STATUS.ERR` (R25, 60_exceptions.md R203) -/
  err : Bool
  /-- `PHASE` (R26); `STATUS.BUSY` is read from it -/
  phase : Phase
  /-- the event latch (60_exceptions.md R207) -/
  evtLatch : Bool
deriving DecidableEq, Repr

/-- The host's side (R32; log entry 5). -/
structure HostSide where
  /-- what the outside does next, in order (20_memory.md R57) -/
  inputs : List Input
  /-- what the outside does when `inputs` is used up: these, again and again, for ever (43_poll.md R166: "If frames
  keep arriving"); none when empty -/
  cycle : List Input
  /-- the chip's queue of received frames, oldest first; the pending-frame counter is its length (R181) -/
  queue : List QueuedFrame
  /-- the chip's ring read pointer (R181) -/
  ringPtr : Nat
  /-- what the outside has seen, newest first -/
  trace : List Event
deriving DecidableEq, Repr

structure State where
  block : Block
  host : HostSide
deriving DecidableEq, Repr

/-- The machine never stops with a fault: "The block raises no synchronous exception and takes no trap"
(60_exceptions.md R200, R211). The block's whole error mechanism is the bit `STATUS.ERR` (`Block.raiseErr`), after
which it goes on. So there is no constructor (log entry 25; safe: nothing is said to stop that goes on). -/
inductive Fault where
deriving DecidableEq, Repr

/-- What the model has no transition for. -/
inductive Refusal where
  /-- an instruction without a meaning yet; raised by an arm of `exec`; safe -/
  | notModelled (mnemonic : String)
  /-- a host action other than `RD STATUS` while `PHASE = RUN`; raised by `performAction` and `execUpdate`; 93 U4:
  "Treatment: `refuse`"; safe (log entry 8) -/
  | hostActionWhileRunning
  /-- `rx` of a CRC-valid frame whose declared length is below 4; raised by the `rx` step of `UPDATE`; 93 U6:
  "Treatment: `refuse`"; safe (log entry 9) -/
  | rxDeclaredLengthBelow4
deriving DecidableEq, Repr

/-- The block after reset (R33): registers and flags 0, IDLE, latch clear, the instance's parameters; `FB` is
unspecified there, so its contents are an argument (93 U1). -/
def Block.resetWith (p : Params) (contents : Memory) : Block where
  params := p
  fb := contents
  len := 0
  rlen := 0
  csumr := 0
  coff := 0
  ccnt := 0
  ckind := 0
  matched := false
  send := false
  cls := .notMe
  err := false
  phase := .idle
  evtLatch := false

/-- The machine after reset, for any instance and any buffer contents, nothing queued or pending. -/
def State.resetWith (p : Params) (contents : Memory) : State where
  block := Block.resetWith p contents
  host := { inputs := [], cycle := [], queue := [], ringPtr := 0, trace := [] }

/-- The machine right after reset: the instance of 95_test_vectors.md, nothing listed in memory.
DESIGN CHOICE (log entries 1, 2, 3, 18): the spec leaves parameters and buffer contents open. Unsafe. -/
def State.reset : State := State.resetWith Params.common []

end Sys2Proof.Machine
end

