-- ==== Sys2Proof/Machine/Flags.lean ====
section
/-! DEFINITION. The flags of `STATUS` (10_state.md R25): how each is computed and how the byte reads. -/

namespace Sys2Proof.Machine

/-- The code of a class in `STATUS.CLASS` (R25). -/
def FrameClass.code : FrameClass → BitVec 2
  | .notMe => 0
  | .arp => 1
  | .echo => 2
  | .ipOther => 3

/-- `STATUS.BUSY` "reads 1 while `PHASE = RUN`, else 0" (R25, R26). -/
def Phase.busy : Phase → Bool
  | .idle => false
  | .run _ => true

/-- The byte `STATUS` reads as (R25): bits 7:6 zero, 5 `BUSY`, 4 `ERR`, 3:2 `CLASS`, 1 `SEND`, 0 `MATCH`. -/
def Block.statusByte (b : Block) : Byte :=
  (0#2 ++ BitVec.ofBool b.phase.busy ++ BitVec.ofBool b.err ++ b.cls.code ++ BitVec.ofBool b.send
    ++ BitVec.ofBool b.matched : BitVec (2 + 1 + 1 + 2 + 1 + 1))

/-- A classifier's result: `x[STATUS].MATCH <- r` (40_classify.md R100 to R102). -/
def Block.setMatch (b : Block) (r : Bool) : Block := { b with matched := r }

/-- What `STEP` leaves in `STATUS.CLASS` and `STATUS.SEND` (43_poll.md R160). -/
def Block.setVerdict (b : Block) (c : FrameClass) (send : Bool) : Block := { b with cls := c, send := send }

end Sys2Proof.Machine
end

