-- ==== Sys2Proof/Machine/Ops.lean ====
section
/-! DEFINITION. The shared operations: reading and writing the frame buffer (20_memory.md, 00_scope.md R9, R10), the
control registers by number (10_state.md R30, 44_host_access.md R184), and `raise Err` (00_scope.md R12), which is
"the whole of the block's error mechanism" (60_exceptions.md R211): there is no trap to enter or return from. -/

namespace Sys2Proof.Machine

/-! ### The frame buffer -/

/-- What an offset that nothing has written reads as. DESIGN CHOICE (log entry 3): 10_state.md R33 leaves the contents
after reset unspecified. Unsafe. -/
def Memory.unwritten : Byte := 0x00

/-- `FB[a]` (R9). -/
def Memory.read : Memory → Nat → Byte
  | [], _ => Memory.unwritten
  | (k, v) :: rest, a => if k = a then v else Memory.read rest a

/-- The list with an entry for `a`, before the first larger offset. -/
def Memory.insert : Memory → Nat → Byte → Memory
  | [], a, v => [(a, v)]
  | (k, w) :: rest, a, v =>
    if a < k then (a, v) :: (k, w) :: rest
    else if a = k then (a, v) :: rest
    else (k, w) :: Memory.insert rest a v

/-- The list without an entry for `a`. -/
def Memory.erase (m : Memory) (a : Nat) : Memory := m.filter (fun c => c.1 != a)

/-- `FB[a] <- v` (R9), keeping the canonical form. -/
def Memory.write (m : Memory) (a : Nat) (v : Byte) : Memory :=
  if v = Memory.unwritten then m.erase a else m.insert a v

/-- `FB[a..a+n-1]` (R9). -/
def Memory.readBytes (m : Memory) (a n : Nat) : List Byte := (List.range n).map (fun i => m.read (a + i))

/-- `FB[a..a+n-1] <- s`, `n` the length of `s` (R9). -/
def Memory.writeBytes : Memory → Nat → List Byte → Memory
  | m, _, [] => m
  | m, a, v :: rest => Memory.writeBytes (m.write a v) (a + 1) rest

/-- Bytes from offset 0 on, as a memory. -/
def Memory.ofBytes (bytes : List Byte) : Memory := Memory.writeBytes [] 0 bytes

/-- The canonical form from offset `lo` on: offsets strictly rising, none equal to what it would read as unlisted. -/
def Memory.risingFrom : Nat → Memory → Bool
  | _, [] => true
  | lo, (k, v) :: rest => decide (lo ≤ k) && v != Memory.unwritten && Memory.risingFrom (k + 1) rest

/-- The canonical form of a memory. -/
def Memory.wf (m : Memory) : Bool := Memory.risingFrom 0 m

/-- Every listed offset lies in a buffer of `cap` bytes. -/
def Memory.below (cap : Nat) (m : Memory) : Bool := m.all (fun c => decide (c.1 < cap))

/-- The big-endian value of a byte sequence: `MemRead(a, n)` is that of `FB[a..a+n-1]` (R10, 20_memory.md R52). -/
def beValue (bytes : List Byte) : Nat := bytes.foldl (fun acc x => acc * 256 + x.toNat) 0

/-- `MemRead(a, n)` (R10). -/
def Memory.memRead (m : Memory) (a n : Nat) : Nat := beValue (m.readBytes a n)

/-- The two bytes of a 16-bit value, "high byte at the lower offset" (42_checksum.md R142). -/
def beBytes (v : Half) : List Byte := [BitVec.ofNat 8 (v.toNat / 256), BitVec.ofNat 8 (v.toNat % 256)]

/-- `MemWrite(a, 2, v)` (R10). -/
def Memory.memWrite2 (m : Memory) (a : Nat) (v : Half) : Memory := m.writeBytes a (beBytes v)

/-- `FB[a]` of the block. -/
def Block.byte (b : Block) (a : Nat) : Byte := b.fb.read a

/-- `BUF_CAP` of the block's instance. -/
def Block.cap (b : Block) : Nat := b.params.bufCap.bytes

/-! ### Updates of the block -/

def Block.setFb (b : Block) (m : Memory) : Block := { b with fb := m }

def Block.setLen (b : Block) (v : Half) : Block := { b with len := v }

def Block.setRlen (b : Block) (v : Half) : Block := { b with rlen := v }

def Block.setCsumr (b : Block) (v : Half) : Block := { b with csumr := v }

def Block.setCoff (b : Block) (v : Half) : Block := { b with coff := v }

def Block.setCcnt (b : Block) (v : Half) : Block := { b with ccnt := v }

def Block.setCkind (b : Block) (v : BitVec 2) : Block := { b with ckind := v }

def Block.setPhase (b : Block) (p : Phase) : Block := { b with phase := p }

def Block.setLatch (b : Block) (v : Bool) : Block := { b with evtLatch := v }

/-- `raise Err`: "set `x[STATUS].ERR <- 1`, change nothing else, and end the operation" (00_scope.md R12). -/
def Block.raiseErr (b : Block) : Block := { b with err := true }

/-- An operation of the block alone: the host's side is unchanged. -/
def State.onBlock (s : State) (f : Block → Block) : State := { s with block := f s.block }

/-- Record what the outside sees. -/
def State.emit (s : State) (e : Event) : State := { s with host := { s.host with trace := e :: s.host.trace } }

/-! ### The control registers -/

/-- `RD REG` (44_host_access.md R184, 10_state.md R30): the register's value, 8-bit ones zero-extended; "a read of
`CMD` or of a reserved register returns 0". -/
def Block.readReg (b : Block) (reg : Byte) : Half :=
  match reg.toNat with
  | 0x01 => b.statusByte.setWidth 16
  | 0x02 => b.len
  | 0x03 => b.rlen
  | 0x04 => b.csumr
  | 0x05 => b.coff
  | 0x06 => b.ccnt
  | 0x07 => b.ckind.setWidth 16
  | 0x08 => BitVec.ofNat 16 b.cap
  | 0x10 => b.params.mymac.b0.setWidth 16
  | 0x11 => b.params.mymac.b1.setWidth 16
  | 0x12 => b.params.mymac.b2.setWidth 16
  | 0x13 => b.params.mymac.b3.setWidth 16
  | 0x14 => b.params.mymac.b4.setWidth 16
  | 0x15 => b.params.mymac.b5.setWidth 16
  | 0x18 => b.params.myip.b0.setWidth 16
  | 0x19 => b.params.myip.b1.setWidth 16
  | 0x1A => b.params.myip.b2.setWidth 16
  | 0x1B => b.params.myip.b3.setWidth 16
  | _ => 0

/-- "a write to `LEN` stores `min(v, BUF_CAP-1)`" (R184). -/
def Block.clampLen (b : Block) (v : Half) : Half := BitVec.ofNat 16 (min v.toNat (b.cap - 1))

/-- `WR REG, v` for every register but `CMD` (R184, R30): a read-only or reserved register does `raise Err`. The
8-bit register `CKIND` keeps bits 1:0 of what is written (R28). -/
def Block.writeReg (b : Block) (reg : Byte) (v : Half) : Block :=
  match reg.toNat with
  | 0x02 => b.setLen (b.clampLen v)
  | 0x05 => b.setCoff v
  | 0x06 => b.setCcnt v
  | 0x07 => b.setCkind (v.setWidth 2)
  | _ => b.raiseErr

end Sys2Proof.Machine
end

