-- ==== Sys2Proof/Machine/Operands.lean ====
section
/-! DEFINITION. What the operations read: the length gates of 00_scope.md R6, the offsets and constants of 30_encoding.md
R70 to R75 as the classifiers test them, and the operands of `CSUM` (42_checksum.md R144, R146). -/

namespace Sys2Proof.Machine

/-- The four bytes at `a` equal `MYIP`, byte by byte (30_encoding.md R77). -/
def Block.isMyIpAt (b : Block) (a : Nat) : Bool :=
  b.byte a == b.params.myip.b0 && b.byte (a + 1) == b.params.myip.b1
    && b.byte (a + 2) == b.params.myip.b2 && b.byte (a + 3) == b.params.myip.b3

/-- `isarp` (40_classify.md R100). -/
def Block.isArp (b : Block) : Bool :=
  decide (b.params.numbers.arpMinLen ≤ b.len.toNat) && b.byte 12 == 0x08 && b.byte 13 == 0x06 && b.isMyIpAt 38

/-- `isipme` (40_classify.md R101). -/
def Block.isIpMe (b : Block) : Bool :=
  decide (b.params.numbers.ipMinLen ≤ b.len.toNat) && b.byte 12 == 0x08 && b.byte 13 == 0x00 && b.byte 14 == 0x45
    && b.isMyIpAt 30

/-- `isecho` (40_classify.md R102): it does not read `LEN`. -/
def Block.isEcho (b : Block) : Bool := b.byte 23 == 0x01 && b.byte 34 == 0x08

/-- The classes in the fixed priority of 43_poll.md R160, R162. -/
def Block.classify (b : Block) : FrameClass :=
  if b.isArp then .arp
  else if !b.isIpMe then .notMe
  else if b.isEcho then .echo
  else .ipOther

/-- The seed of the word sum for a kind and a range of `n` bytes (42_checksum.md R143, R144, R146): kind 1 UDP,
protocol 17; kind 2 TCP, protocol 6; `adj` is `PLEN_ADJ`. Kind 3 is reserved and never gets here
(`Block.csumLegal`). -/
def csumSeed (adj : Nat) (kind : BitVec 2) (n : Nat) : Nat :=
  if kind = 1 then 17 + (n - adj) else if kind = 2 then 6 + (n - adj) else 0

/-- None of the three error cases of `CSUM` (R146): the range stays in the buffer, the kind is not the reserved one,
a transport kind has room for the two addresses (`PLEN_ADJ` bytes, R144; log entry 20). The sum does not wrap. -/
def Block.csumLegal (b : Block) : Bool :=
  decide (b.coff.toNat + b.ccnt.toNat ≤ b.cap) && b.ckind != 3
    && ((b.ckind != 1 && b.ckind != 2) || decide (b.params.numbers.plenAdj ≤ b.ccnt.toNat))

/-- `FB[COFF..COFF+CCNT-1]` (R146). -/
def Block.csumRange (b : Block) : List Byte := b.fb.readBytes b.coff.toNat b.ccnt.toNat

end Sys2Proof.Machine
end

