-- ==== Sys2Proof/Machine/Classify.lean ====
section
/-! DEFINITION. The classifier commands (40_classify.md R100 to R105): each writes `STATUS.MATCH` and nothing else. -/

namespace Sys2Proof.Machine

/-- `ISARP`, command 0x01 (R100). -/
def execIsarp (s : State) : Host.Outcome State Fault Refusal := .next (s.onBlock (fun b => b.setMatch b.isArp))

/-- `ISIPME`, command 0x02 (R101). -/
def execIsipme (s : State) : Host.Outcome State Fault Refusal := .next (s.onBlock (fun b => b.setMatch b.isIpMe))

/-- `ISECHO`, command 0x03 (R102). -/
def execIsecho (s : State) : Host.Outcome State Fault Refusal := .next (s.onBlock (fun b => b.setMatch b.isEcho))

end Sys2Proof.Machine
end

