-- ==== Sys2Proof/Machine/Checksum.lean ====
section
/-! DEFINITION. The one's-complement checksum unit (42_checksum.md) and the `CSUM` command. -/

namespace Sys2Proof.Machine

/-- The loop of `fold16` with a bound on its passes. -/
def foldLoop : Nat → Nat → Nat
  | 0, s => s
  | passes + 1, s => if s < 0x10000 then s else foldLoop passes (s % 0x10000 + s / 0x10000)

/-- `fold16(s)` (00_scope.md R13): "while s >= 0x10000: s <- (s mod 0x10000) + (s >> 16)". Every pass lowers `s`, so
`s` passes are enough for the loop to end by itself (`fold16_lt`). -/
def fold16 (s : Nat) : Nat := foldLoop s s

/-- `not16(v) = 0xFFFF - v` (R13). -/
def not16 (v : Nat) : Nat := 0xFFFF - v

/-- `ocadd16(a, b) = fold16(a + b)` (R13). -/
def ocadd16 (a b : Nat) : Nat := fold16 (a + b)

/-- The word sum (42_checksum.md R140); "a trailing odd byte is treated as high-order-byte-padded-with-zero". -/
def wsum : List Byte → Nat
  | [] => 0
  | [x] => x.toNat * 256
  | x :: y :: rest => (x.toNat * 256 + y.toNat) + wsum rest

/-- `cksum_raw(s, seed)` (R142). -/
def cksumRaw (s : List Byte) (seed : Nat) : Nat := fold16 (seed + wsum s)

/-- `cksum(s, seed)` (R142). -/
def cksum (s : List Byte) (seed : Nat) : Nat := not16 (cksumRaw s seed)

/-- `cksum` as a 16-bit register value. -/
def cksum16 (s : List Byte) (seed : Nat) : Half := BitVec.ofNat 16 (cksum s seed)

/-- `icmp_patch(c) = ocadd16(c, 0x0800)` (R150; direction settled by 90_conflicts.md C1). -/
def icmpPatch (c : Half) : Half := BitVec.ofNat 16 (ocadd16 c.toNat 0x0800)

/-- `CSUM` (R146) on the block. -/
def Block.csum (b : Block) : Block :=
  if b.csumLegal then
    b.setCsumr (cksum16 b.csumRange (csumSeed b.params.numbers.plenAdj b.ckind b.ccnt.toNat))
  else b.raiseErr

/-- `CSUM`, command 0x06 (R146). -/
def execCsum (s : State) : Host.Outcome State Fault Refusal := .next (s.onBlock Block.csum)

end Sys2Proof.Machine
end

