-- ==== Sys2Proof/Machine/Reply.lean ====
section
/-! DEFINITION. The reply builders (41_reply.md). Each reads the buffer as it was when it began (`old`, 00_scope.md
R11) and is unconditional (R131). -/

namespace Sys2Proof.Machine

/-- The Ethernet header of a reply (R120, R125): destination the requester, source `MYMAC`. -/
def replyEthernet (p : Params) (old m : Memory) : Memory :=
  (m.writeBytes 0 (old.readBytes 6 6)).writeBytes 6 (macBytes p.mymac)

/-- The buffer after `MKARP` (R120). -/
def mkarpBuffer (p : Params) (old : Memory) : Memory :=
  ((((((replyEthernet p old old).writeBytes 20 [0x00, 0x02]).writeBytes 32 (old.readBytes 22 6)).writeBytes 38
    (old.readBytes 28 4)).writeBytes 22 (macBytes p.mymac)).writeBytes 28 (ipBytes p.myip))

/-- `MKARP` on the block: the buffer, and the fixed length in `RLEN`. -/
def Block.mkarp (b : Block) : Block := (b.setFb (mkarpBuffer b.params b.fb)).setRlen b.params.numbers.arpReplyLen

/-- Steps 1 and 2 of `MKECHO` (R125): Ethernet header, IP addresses, the checksum field cleared, "don't fragment"
forced by overwriting both bytes (92 D12), TTL. -/
def mkechoFields (p : Params) (old : Memory) : Memory :=
  (((((replyEthernet p old old).writeBytes 30 (old.readBytes 26 4)).writeBytes 26 (ipBytes p.myip)).writeBytes 24
    [0x00, 0x00]).writeBytes 20 [0x40, 0x00]).writeBytes 22 [p.numbers.replyTtl]

/-- The buffer after `MKECHO` (R125): step 3 sums the header as steps 1 and 2 left it; steps 4 and 5 set the type and
patch the old ICMP checksum. -/
def mkechoBuffer (p : Params) (old : Memory) : Memory :=
  let m := mkechoFields p old
  let h := cksum16 (m.readBytes 14 20) 0
  let c := BitVec.ofNat 16 (old.memRead 36 2)
  ((m.memWrite2 24 h).writeBytes 34 [0x00]).memWrite2 36 (icmpPatch c)

/-- `MKECHO` on the block: the buffer, and the frame's own length in `RLEN`. -/
def Block.mkecho (b : Block) : Block := (b.setFb (mkechoBuffer b.params b.fb)).setRlen b.len

/-- `MKARP`, command 0x04 (R120). -/
def execMkarp (s : State) : Host.Outcome State Fault Refusal := .next (s.onBlock Block.mkarp)

/-- `MKECHO`, command 0x05 (R125). -/
def execMkecho (s : State) : Host.Outcome State Fault Refusal := .next (s.onBlock Block.mkecho)

end Sys2Proof.Machine
end

