-- ==== Sys2Proof/Machine/Poll.lean ====
section
/-! DEFINITION. Dispatch of one frame and the steps of the poll loop (43_poll.md), with the services `rx` and `tx`
as the host answers them (44_host_access.md R181, R185). -/

namespace Sys2Proof.Machine

/-- What `STEP` does with a frame of a class (R160): build the reply, or drop. -/
def Block.answer (b : Block) (c : FrameClass) : Block :=
  match c with
  | .arp => b.mkarp.setVerdict .arp true
  | .echo => b.mkecho.setVerdict .echo true
  | .notMe => (b.setRlen 0).setVerdict .notMe false
  | .ipOther => (b.setRlen 0).setVerdict .ipOther false

/-- `STEP`, command 0x07 (R160): every test on the pre-state, one of four arms. -/
def execStep (s : State) : Host.Outcome State Fault Refusal := .next (s.onBlock (fun b => b.answer b.classify))

/-- Frame class `ARP` (30_encoding.md R78): the arm of `STEP` that runs `MKARP`. -/
def execFrameArp (s : State) : Host.Outcome State Fault Refusal := .next (s.onBlock (fun b => b.answer .arp))

/-- Frame class `ECHO` (30_encoding.md R80): the arm of `STEP` that runs `MKECHO`. -/
def execFrameEcho (s : State) : Host.Outcome State Fault Refusal := .next (s.onBlock (fun b => b.answer .echo))

/-- Frame class `IP_OTHER` (30_encoding.md R80): dropped. -/
def execFrameIpOther (s : State) : Host.Outcome State Fault Refusal := .next (s.onBlock (fun b => b.answer .ipOther))

/-- Frame class `NOT_ME` (30_encoding.md R82): dropped. -/
def execFrameNotMe (s : State) : Host.Outcome State Fault Refusal := .next (s.onBlock (fun b => b.answer .notMe))

/-- `PHASE <- RUN`, the loop at its first `rx` (R165). -/
def Block.startUpdate (b : Block) : Block := b.setPhase (.run .rx)

/-- `UPDATE`, command 0x08 (R165): it starts the loop. "A second `UPDATE` never starts inside a running one"
(70_reset_and_hazards.md R240): the command is then a breach of 20_memory.md R58, refused (93 U4). -/
def execUpdate (s : State) : Host.Outcome State Fault Refusal :=
  match s.block.phase with
  | .idle => .next (s.onBlock Block.startUpdate)
  | .run _ => .refused .hostActionWhileRunning

/-- The end of an `UPDATE`: IDLE; or, when the event latch is set, "the latch is cleared and one more `UPDATE` starts
at once" (60_exceptions.md R207). -/
def Block.endUpdate (b : Block) : Block :=
  if b.evtLatch then (b.setLatch false).startUpdate else b.setPhase .idle

/-- `FB[0..n-1] <- data; x[LEN] <- n` (44_host_access.md R180). -/
def Block.deliver (b : Block) (data : List Byte) : Block :=
  (b.setFb (b.fb.writeBytes 0 data)).setLen (BitVec.ofNat 16 data.length)

/-- The chip's queue without its oldest frame `f`: "advance the ring read pointer to the stored next-frame value,
then decrement the pending counter" (R181). -/
def HostSide.consume (h : HostSide) (f : QueuedFrame) : HostSide :=
  { h with queue := h.queue.tail, ringPtr := f.next }

/-- The bytes `rx` delivers of a CRC-valid frame: declared length less 4 "to drop the trailing CRC", "clamp to
maxLen-1" (R181). -/
def rxBytes (cap : Nat) (f : QueuedFrame) : List Byte := f.bytes.take (min (f.bytes.length - 4) (cap - 1))

/-- After `rx` returned `data` (R165): length 0 sets `LEN <- 0` and ends the loop, else the bytes are delivered next. -/
def Block.afterRx (b : Block) (data : List Byte) : Block :=
  if data = [] then (b.setLen 0).endUpdate else b.setPhase (.run (.load data))

/-- The `rx` step of `UPDATE` (R165, R181). -/
def rxStep (s : State) : Host.Outcome State Fault Refusal :=
  match s.host.queue with
  | [] => .next ((s.onBlock (fun b => b.afterRx [])).emit (.rx 0))
  | f :: _ =>
    if !f.crcValid then
      .next (({ s with host := s.host.consume f }.onBlock (fun b => b.afterRx [])).emit (.rx 0))
    else if f.bytes.length < 4 then .refused .rxDeclaredLengthBelow4
    else
      let data := rxBytes s.block.cap f
      .next (({ s with host := s.host.consume f }.onBlock (fun b => b.afterRx data)).emit (.rx data.length))

/-- The delivery step of `UPDATE` (R165): the bytes `rx` returned are delivered, the frame is classified next. -/
def loadStep (s : State) (data : List Byte) : State :=
  s.onBlock (fun b => (b.deliver data).setPhase (.run .step))

/-- After the `STEP` of `UPDATE` (R165): `tx` next if it set `SEND`, else the next `rx`. -/
def Block.afterStep (b : Block) : Block := b.setPhase (.run (if b.send then .tx else .rx))

/-- The `tx` step of `UPDATE` (R165, R185): `tx(FB[0..RLEN-1])`, complete before the next `rx` (R168). -/
def txStep (s : State) : State :=
  (s.onBlock (fun b => b.setPhase (.run .rx))).emit (.tx (s.block.fb.readBytes 0 s.block.rlen.toNat))

end Sys2Proof.Machine
end

