-- ==== Sys2Proof/Machine/Dispatch.lean ====
section
/-! DEFINITION. One arm per instruction. -/

namespace Sys2Proof.Machine

def exec (i : Instr) (s : State) : Host.Outcome State Fault Refusal :=
  match i with
  | .isarp => Sys2Proof.Machine.execIsarp s
  | .isipme => Sys2Proof.Machine.execIsipme s
  | .isecho => Sys2Proof.Machine.execIsecho s
  | .mkarp => Sys2Proof.Machine.execMkarp s
  | .mkecho => Sys2Proof.Machine.execMkecho s
  | .csum => Sys2Proof.Machine.execCsum s
  | .step => Sys2Proof.Machine.execStep s
  | .update => Sys2Proof.Machine.execUpdate s
  | .frameArp => Sys2Proof.Machine.execFrameArp s
  | .frameEcho => Sys2Proof.Machine.execFrameEcho s
  | .frameIpOther => Sys2Proof.Machine.execFrameIpOther s
  | .frameNotMe => Sys2Proof.Machine.execFrameNotMe s

end Sys2Proof.Machine
end

