-- ==== Sys2Proof/Machine/HostAccess.lean ====
section
/-! DEFINITION. The host's accesses (44_host_access.md), events (60_exceptions.md R206, R207), reset
(70_reset_and_hazards.md R230) and construction (44_host_access.md R186). -/

namespace Sys2Proof.Machine

/-- `LOAD n: data` (R180): `n = 0` sets `LEN <- 0` and writes nothing, `n >= BUF_CAP` does `raise Err`. -/
def Block.load (b : Block) (data : List Byte) : Block :=
  if data.length < b.cap then b.deliver data else b.raiseErr

/-- `LOAD`. -/
def loadAction (s : State) (data : List Byte) : State := s.onBlock (fun b => b.load data)

/-- `UNLOAD n` (R182): returns `FB[0..n-1]`; `n > BUF_CAP` does `raise Err` and returns nothing (log entry 12). -/
def unloadAction (s : State) (n : Nat) : State :=
  if n ≤ s.block.cap then s.emit (.unloaded (s.block.fb.readBytes 0 n)) else s.onBlock Block.raiseErr

/-- `PEEK a` (R183): outside the buffer `raise Err` and "the value returned is 0". -/
def peekAction (s : State) (a : Nat) : State :=
  if a < s.block.cap then s.emit (.peeked a (s.block.byte a))
  else (s.onBlock Block.raiseErr).emit (.peeked a 0)

/-- `POKE a, v` (R183). -/
def pokeAction (s : State) (a : Nat) (v : Byte) : State :=
  if a < s.block.cap then s.onBlock (fun b => b.setFb (b.fb.write a v)) else s.onBlock Block.raiseErr

/-- `RD REG` (R184). -/
def rdAction (s : State) (reg : Byte) : State := s.emit (.read reg (s.block.readReg reg))

/-- `WR REG, v` for every register but `CMD` (R184). -/
def wrAction (s : State) (reg : Byte) (v : Half) : State := s.onBlock (fun b => b.writeReg reg v)

/-- The command code in a value written to the 8-bit register `CMD` (30_encoding.md R84): its low byte.
DESIGN CHOICE (log entry 11). -/
def commandCode (v : Half) : Byte := v.setWidth 8

/-- A reserved code: "writing one does `raise Err`" (30_encoding.md R85). -/
def reservedCommand (s : State) : State := s.onBlock Block.raiseErr

/-- An `EVT` edge while `PHASE = RUN` (R207). -/
def Block.evtWhileBusy (b : Block) : Block :=
  match b.params.evtWhileBusy with
  | .ignored => b
  | .latched => b.setLatch true

/-- Reset (R230): the values of 10_state.md R33; the buffer then holds unspecified bytes, here `contents` (log entry
4). A running `UPDATE` is abandoned; the host's side is not the block's (log entry 27). -/
def resetAction (s : State) (contents : List Byte) : State :=
  s.onBlock (fun b => Block.resetWith b.params (Memory.ofBytes (contents.take b.cap)))

/-- A received frame joins the chip's queue. -/
def arriveAction (s : State) (f : QueuedFrame) : State :=
  { s with host := { s.host with queue := s.host.queue ++ [f] } }

/-- What may happen while `PHASE = RUN`: of the host's actions `RD STATUS` alone (20_memory.md R58, 93 U4); an event
(R207), a reset (R230) and the network's frames at any time. -/
def Action.allowedWhileRunning : Action → Bool
  | .load _ => false
  | .unload _ => false
  | .peek _ => false
  | .poke _ _ => false
  | .rd reg => reg == 0x01
  | .wr _ _ => false
  | .evt => true
  | .reset _ => true
  | .arrive _ => true

/-- Construction (R186, 00_scope.md R6): "`BUF_CAP = min(requested, 1500)`"; a capacity below 43 is no instance
(92 D5). The numbers of R6 are the instance's too. -/
def construct (mac : Mac) (ip : Ip) (requested : Nat) (evt : EvtWhileBusy) (numbers : Numbers) (contents : List Byte) :
    Option State :=
  if h : 43 ≤ min requested 1500 then
    some (State.resetWith ⟨mac, ip, ⟨min requested 1500, h, Nat.min_le_right _ _⟩, evt, numbers⟩
      (Memory.ofBytes (contents.take (min requested 1500))))
  else none

end Sys2Proof.Machine
end

