-- ==== Sys2Proof/Machine/Sequencer.lean ====
section
/-! DEFINITION. What one step of the whole machine does: the next input of the outside world, or the next step of a
running `UPDATE`, or nothing (20_memory.md R57, 43_poll.md R165, 70_reset_and_hazards.md R231). -/

namespace Sys2Proof.Machine

/-- The frame in the buffer as an instruction word (30_encoding.md R78 to R82, R87). -/
def Block.fetchFrame (b : Block) : Instr := decodeFrame b.params b.len.toNat b.byte

/-- A value written to `CMD`: "executes the operation that value encodes" (10_state.md R27). -/
def commandAction (s : State) (v : Half) : Host.Outcome State Fault Refusal :=
  match decodeCommand (commandCode v) with
  | some i => exec i s
  | none => .next (reservedCommand s)

/-- An `EVT` edge (60_exceptions.md R206, R207): while IDLE "exactly as a host write of 0x08 to `CMD`". -/
def evtAction (s : State) : Host.Outcome State Fault Refusal :=
  match s.block.phase with
  | .idle => exec .update s
  | .run _ => .next (s.onBlock Block.evtWhileBusy)

/-- One action of the outside. While `PHASE = RUN` only those of 20_memory.md R58 (93 U4: the others are refused). -/
def performAction (a : Action) (s : State) : Host.Outcome State Fault Refusal :=
  if s.block.phase.busy && !a.allowedWhileRunning then .refused .hostActionWhileRunning
  else
    match a with
    | .load data => .next (loadAction s data)
    | .unload n => .next (unloadAction s n)
    | .peek a => .next (peekAction s a)
    | .poke a v => .next (pokeAction s a v)
    | .rd reg => .next (rdAction s reg)
    | .wr reg v => if reg = 0x00 then commandAction s v else .next (wrAction s reg v)
    | .evt => evtAction s
    | .reset contents => .next (resetAction s contents)
    | .arrive f => .next (arriveAction s f)

/-- The `STEP` of a running `UPDATE` (43_poll.md R165): the frame in the buffer is decoded and executed, and the loop
goes on to `tx` or `rx`. -/
def frameStep (s : State) : Host.Outcome State Fault Refusal :=
  match exec s.block.fetchFrame s with
  | .next t => .next (t.onBlock Block.afterStep)
  | .fault r => .fault r
  | .refused r => .refused r

/-- The block's own next step: that of a running `UPDATE`; when IDLE, nothing (R231). -/
def blockStep (s : State) : Host.Outcome State Fault Refusal :=
  match s.block.phase with
  | .idle => .next s
  | .run .rx => rxStep s
  | .run (.load data) => .next (loadStep s data)
  | .run .step => frameStep s
  | .run .tx => .next (txStep s)

/-- The inputs to come: those listed, and when they are used up those that repeat (log entry 5). -/
def State.pending (s : State) : List Input :=
  match s.host.inputs with
  | [] => s.host.cycle
  | i :: rest => i :: rest

/-- The state with its first pending input taken. -/
def State.popInput (s : State) : State := { s with host := { s.host with inputs := s.pending.tail } }

/-- One step of the machine. An input `inTurn` waits for a running `UPDATE` to end (log entry 5). -/
def stepBody (s : State) : Host.Outcome State Fault Refusal :=
  match s.pending with
  | [] => blockStep s
  | .tick :: _ => blockStep s.popInput
  | .atOnce a :: _ => performAction a s.popInput
  | .inTurn a :: _ => if s.block.phase.busy then blockStep s else performAction a s.popInput

/-- The state in which the next step is the write of `code` to `CMD`. -/
def State.withCommandNext (s : State) (code : Byte) : State :=
  { block := s.block.setPhase .idle,
    host := { s.host with inputs := .inTurn (.wr 0x00 (code.setWidth 16)) :: s.host.inputs } }

/-- The block of the instance whose `MYIP` is `ip`. -/
def Block.withMyIp (b : Block) (ip : Ip) : Block := { b with params := { b.params with myip := ip } }

/-- The state in which the next step is the `STEP` of a running `UPDATE` on the frame `bytes`, of the instance the frame
is addressed to (log entry 14). -/
def State.withFrameNext (s : State) (bytes : List Byte) : State :=
  { block := ((s.block.withMyIp (frameTargetIp bytes)).deliver bytes).setPhase (.run .step),
    host := { s.host with inputs := .tick :: s.host.inputs } }

/-- Where the next instruction word is taken from: a command from the next input, a frame from the buffer. -/
def placeWord (s : State) (nbits w : Nat) : State :=
  if nbits ≤ 8 then s.withCommandNext (wordByte nbits w 0) else s.withFrameNext (wordFrame nbits w)

end Sys2Proof.Machine
end

