-- ==== Sys2Proof/Machine/Step.lean ====
section
/-! DEFINITION. The step of the machine, and how an instruction word is put where the next step takes it. -/

namespace Sys2Proof.Machine

/-- One atomic step (00_scope.md R14). -/
def step (s : State) : Host.Outcome State Fault Refusal := stepBody s

/-- The state whose next step runs the instruction whose bits are `w` (log entry 14). -/
def State.withFetchWord (s : State) (nbits w : Nat) : State := placeWord s nbits w

end Sys2Proof.Machine
end

