-- ==== Sys2Proof/Safety.lean ====
section
/-! DEFINITION. What claims call a good state and a safe run. -/

namespace Sys2Proof.Machine

/-- What a running `UPDATE` carries from one of its steps to the next: bytes to deliver are 1 to `BUF_CAP-1`
(44_host_access.md R180, R181); at `tx` a reply is there to send (43_poll.md R165), "`RLEN >= 1`" (R185). -/
def Block.phaseOk (b : Block) : Bool :=
  match b.phase with
  | .idle => true
  | .run .rx => true
  | .run (.load data) => decide (1 ≤ data.length) && decide (data.length ≤ b.cap - 1)
  | .run .step => true
  | .run .tx => b.send && decide (1 ≤ b.rlen.toNat)

/-- The invariant of the block: an instance whose numbers fit, memory in its canonical form and inside the buffer
(10_state.md R20), `LEN` and `RLEN` "0 to `BUF_CAP-1`" (R21, R30), the loop's hand-over, and a set event latch only in a
running `UPDATE` of an instance that latches (60_exceptions.md R207). -/
abbrev Block.Inv (b : Block) : Prop :=
  b.params.numbersOk = true ∧ b.fb.wf = true ∧ b.fb.below b.cap = true ∧ b.len.toNat ≤ b.cap - 1
    ∧ b.rlen.toNat ≤ b.cap - 1 ∧ b.phaseOk = true ∧ (b.evtLatch = true → b.params.evtWhileBusy = .latched ∧ b.phase.busy = true)

/-- The invariant of the machine. -/
abbrev State.Inv (s : State) : Prop := s.block.Inv

/-- "treat a run that sets it as gone wrong" (60_exceptions.md R203). -/
abbrev State.GoneWrong (s : State) : Prop := s.block.err = true

/-- A run that never goes wrong, whatever number of steps it takes. -/
def SafeRun (s : State) : Prop := ∀ k t, Sys2Proof.core.run k s = .next t → ¬ t.GoneWrong

/-- A call of `rx`. -/
def Event.isRx : Event → Bool
  | .rx _ => true
  | .tx _ => false
  | .read _ _ => false
  | .peeked _ _ => false
  | .unloaded _ => false

/-! ### The classification tests as propositions, and whose turn it is -/

/-- `FB[a..a+3] = MYIP` (30_encoding.md R77). -/
abbrev Block.MyIpAt (b : Block) (a : Nat) : Prop :=
  b.byte a = b.params.myip.b0 ∧ b.byte (a + 1) = b.params.myip.b1 ∧ b.byte (a + 2) = b.params.myip.b2
    ∧ b.byte (a + 3) = b.params.myip.b3

/-- The frame is a resolution request for this device (30_encoding.md R78). -/
abbrev Block.ArpForMe (b : Block) : Prop :=
  b.params.numbers.arpMinLen ≤ b.len.toNat ∧ b.byte 12 = 0x08 ∧ b.byte 13 = 0x06 ∧ b.MyIpAt 38

/-- The frame is an option-less IP packet for this device (R79). -/
abbrev Block.IpForMe (b : Block) : Prop :=
  b.params.numbers.ipMinLen ≤ b.len.toNat ∧ b.byte 12 = 0x08 ∧ b.byte 13 = 0x00 ∧ b.byte 14 = 0x45 ∧ b.MyIpAt 30

/-- The last two tests of R80. -/
abbrev Block.EchoRequest (b : Block) : Prop := b.byte 23 = 0x01 ∧ b.byte 34 = 0x08

/-- The next step performs the action `a` of the outside: it comes at once, or in turn while IDLE. -/
abbrev State.Performs (s : State) (a : Action) : Prop :=
  s.pending.head? = some (.atOnce a) ∨ (s.pending.head? = some (.inTurn a) ∧ s.block.phase = .idle)

/-- The next step is the block's own. -/
def State.blockTurn (s : State) : Bool :=
  match s.pending with
  | [] => true
  | .tick :: _ => true
  | .atOnce _ :: _ => false
  | .inTurn _ :: _ => s.block.phase.busy

/-- The state the block's own step starts from: a `tick` is used up by it, nothing else changes. -/
def State.taken (s : State) : State :=
  match s.pending with
  | .tick :: _ => s.popInput
  | _ => s

end Sys2Proof.Machine
end

