-- ==== Sys2Proof/Certificates/Slice0/Obligations.lean ====
section
/-! DEFINITION. The statements for the provers. A next state is written as the old one with the fields that change:
what is not named there is unchanged (every register, flag, the host's side); a changed buffer is said byte by byte.
The numbers of 00_scope.md R6 are parameters of the instance; where a rule gives one its value, a clause says so for
the instances that have R6's values (`Numbers.r6`, log entry 20). -/

open Sys2Proof Sys2Proof.Machine

/-! ### The classifiers (40_classify.md) -/

/-- R100: `ISARP`, code 0x01, sets `MATCH` to the conjunction and changes nothing else; the gate is `ARP_MIN_LEN`, 14. -/
def Obligations.IsarpSetsMatchOnly : Prop :=
  decodeCommand 0x01 = some .isarp ∧
  ∀ s : State,
    exec .isarp s = .next { s with block := { s.block with matched := decide s.block.ArpForMe } } ∧
    (s.block.params.numbers = Numbers.r6 →
      (s.block.ArpForMe ↔ 14 ≤ s.block.len.toNat ∧ s.block.byte 12 = 0x08 ∧ s.block.byte 13 = 0x06 ∧
        ∀ k < 4, s.block.byte (38 + k) = (ipBytes s.block.params.myip).getD k 0))

/-- R101: `ISIPME`, code 0x02; the gate is `IP_MIN_LEN`, 34. -/
def Obligations.IsipmeSetsMatchOnly : Prop :=
  decodeCommand 0x02 = some .isipme ∧
  ∀ s : State,
    exec .isipme s = .next { s with block := { s.block with matched := decide s.block.IpForMe } } ∧
    (s.block.params.numbers = Numbers.r6 →
      (s.block.IpForMe ↔ 34 ≤ s.block.len.toNat ∧ s.block.byte 12 = 0x08 ∧ s.block.byte 13 = 0x00 ∧
        s.block.byte 14 = 0x45 ∧ ∀ k < 4, s.block.byte (30 + k) = (ipBytes s.block.params.myip).getD k 0))

/-- R102: `ISECHO`, code 0x03; it does not read `LEN`. -/
def Obligations.IsechoSetsMatchOnly : Prop :=
  decodeCommand 0x03 = some .isecho ∧
  ∀ s : State, exec .isecho s = .next { s with block := { s.block with matched := decide s.block.EchoRequest } }

/-- R54, the reads of the classifier rows: two states that agree on them get the same `MATCH`, whatever else differs
(the two gates, parameters here, are read as `MYIP` is). -/
def Obligations.ClassifiersReadTheirFootprintOnly : Prop :=
  ∀ s s' : State, s.block.params.myip = s'.block.params.myip → s.block.params.numbers = s'.block.params.numbers →
    (∀ t t', exec .isarp s = .next t → exec .isarp s' = .next t' → s.block.len = s'.block.len →
      (∀ a ∈ [12, 13, 38, 39, 40, 41], s.block.byte a = s'.block.byte a) → t.block.matched = t'.block.matched) ∧
    (∀ t t', exec .isipme s = .next t → exec .isipme s' = .next t' → s.block.len = s'.block.len →
      (∀ a ∈ [12, 13, 14, 30, 31, 32, 33], s.block.byte a = s'.block.byte a) →
      t.block.matched = t'.block.matched) ∧
    (∀ t t', exec .isecho s = .next t → exec .isecho s' = .next t' →
      (∀ a ∈ [23, 34], s.block.byte a = s'.block.byte a) → t.block.matched = t'.block.matched)

/-- R55, its idempotence clause: a classifier or `CSUM` run again changes nothing more. -/
def Obligations.ClassifiersAndCsumAreIdempotent : Prop :=
  ∀ i ∈ [Instr.isarp, .isipme, .isecho, .csum], ∀ s t : State, exec i s = .next t → exec i t = .next t

/-! ### The builders (41_reply.md) -/

/-- R120, R121: `MKARP`, code 0x04, for every pre-state; `RLEN` is `ARP_REPLY_LEN`, 42. -/
def Obligations.MkarpBuildsTheReply : Prop :=
  decodeCommand 0x04 = some .mkarp ∧
  ∀ s : State, ∃ t : State, exec .mkarp s = .next t ∧
    t = { s with block := { s.block with fb := t.block.fb, rlen := s.block.params.numbers.arpReplyLen } } ∧
    (s.block.params.numbers = Numbers.r6 → t.block.rlen = 42) ∧
    (∀ k < 6, t.block.byte k = s.block.byte (6 + k)) ∧
    (∀ k < 6, t.block.byte (6 + k) = (macBytes s.block.params.mymac).getD k 0) ∧
    t.block.byte 20 = 0x00 ∧ t.block.byte 21 = 0x02 ∧ t.block.fb.memRead 20 2 = 2 ∧
    (∀ k < 6, t.block.byte (32 + k) = s.block.byte (22 + k)) ∧
    (∀ k < 4, t.block.byte (38 + k) = s.block.byte (28 + k)) ∧
    (∀ k < 6, t.block.byte (22 + k) = (macBytes s.block.params.mymac).getD k 0) ∧
    (∀ k < 4, t.block.byte (28 + k) = (ipBytes s.block.params.myip).getD k 0) ∧
    (∀ a, (12 ≤ a ∧ a ≤ 19) ∨ 42 ≤ a → t.block.byte a = s.block.byte a)

/-- R125: `MKECHO`, code 0x05, for every pre-state: the header checksum is that of offsets 14 to 33 as they stand after
it with offsets 24 and 25 taken as zero; the ICMP checksum is the old one patched; the TTL is `REPLY_TTL`, 64. -/
def Obligations.MkechoBuildsTheReply : Prop :=
  decodeCommand 0x05 = some .mkecho ∧
  ∀ s : State, ∃ t : State, exec .mkecho s = .next t ∧
    t = { s with block := { s.block with fb := t.block.fb, rlen := s.block.len } } ∧
    (∀ k < 6, t.block.byte k = s.block.byte (6 + k)) ∧
    (∀ k < 6, t.block.byte (6 + k) = (macBytes s.block.params.mymac).getD k 0) ∧
    (∀ k < 4, t.block.byte (30 + k) = s.block.byte (26 + k)) ∧
    (∀ k < 4, t.block.byte (26 + k) = (ipBytes s.block.params.myip).getD k 0) ∧
    t.block.byte 20 = 0x40 ∧ t.block.byte 21 = 0x00 ∧ t.block.byte 22 = s.block.params.numbers.replyTtl ∧
    (s.block.params.numbers = Numbers.r6 → t.block.byte 22 = 64) ∧
    t.block.fb.memRead 24 2 = cksum (((t.block.fb.readBytes 14 20).set 10 0).set 11 0) 0 ∧
    t.block.byte 34 = 0x00 ∧
    t.block.fb.memRead 36 2 = fold16 (s.block.fb.memRead 36 2 + 0x0800) ∧
    (∀ a, (12 ≤ a ∧ a ≤ 19) ∨ a = 23 ∨ a = 35 ∨ 38 ≤ a → t.block.byte a = s.block.byte a)

/-- R127: after `MKECHO` on any buffer the IP header verifies, the type is 0, and the named fields hold. -/
def Obligations.MkechoHeaderVerifies : Prop :=
  ∀ s : State, ∃ t : State, exec .mkecho s = .next t ∧
    t.block.byte 34 = 0x00 ∧ cksum (t.block.fb.readBytes 14 20) 0 = 0x0000 ∧
    t.block.byte 22 = s.block.params.numbers.replyTtl ∧
    (s.block.params.numbers = Numbers.r6 → t.block.byte 22 = 64) ∧ t.block.fb.memRead 20 2 = 0x4000 ∧
    t.block.fb.readBytes 0 6 = s.block.fb.readBytes 6 6 ∧
    t.block.fb.readBytes 6 6 = macBytes s.block.params.mymac ∧
    t.block.fb.readBytes 26 4 = ipBytes s.block.params.myip ∧
    t.block.fb.readBytes 30 4 = s.block.fb.readBytes 26 4 ∧
    t.block.rlen = s.block.len

/-- R151: for a message of any length `L >= 4` whose type is 8, the residue of the word sum modulo 0xFFFF is the same
before and after `MKECHO`, and a message that verifies still verifies. -/
def Obligations.MkechoKeepsIcmpValidity : Prop :=
  ∀ (s : State) (L : Nat), 4 ≤ L → s.block.byte 34 = 0x08 →
    ∃ t : State, exec .mkecho s = .next t ∧
      wsum (t.block.fb.readBytes 34 L) % 0xFFFF = wsum (s.block.fb.readBytes 34 L) % 0xFFFF ∧
      (cksum (s.block.fb.readBytes 34 L) 0 = 0x0000 → cksum (t.block.fb.readBytes 34 L) 0 = 0x0000)

/-- R152: for a request that verifies, the patched field `c` (1 to 0xFFFF) and the field `r` a full recompute would store
agree modulo 0xFFFF; `r` is 0xFFFF only when every other word is zero; they are equal except when the request's field is
0xF7FF and the reply has a nonzero word outside the field, where they are 0xFFFF and 0; both verify. -/
def Obligations.PatchAgainstRecompute : Prop :=
  ∀ (s : State) (L : Nat), 4 ≤ L → s.block.byte 34 = 0x08 → cksum (s.block.fb.readBytes 34 L) 0 = 0x0000 →
    ∃ t : State, exec .mkecho s = .next t ∧
      let zeroed := ((t.block.fb.readBytes 34 L).set 2 0).set 3 0
      let c := t.block.fb.memRead 36 2
      let r := cksum zeroed 0
      let odd := s.block.fb.memRead 36 2 = 0xF7FF ∧ ∃ x ∈ zeroed, x ≠ 0
      1 ≤ c ∧ c ≤ 0xFFFF ∧ r ≤ 0xFFFF ∧ c % 0xFFFF = r % 0xFFFF ∧ (r = 0xFFFF → ∀ x ∈ zeroed, x = 0) ∧
      (¬ odd → c = r) ∧ (odd → c = 0xFFFF ∧ r = 0x0000) ∧
      cksum (t.block.fb.readBytes 34 L) 0 = 0x0000 ∧
      cksum ((zeroed.set 2 (BitVec.ofNat 8 (r / 256))).set 3 (BitVec.ofNat 8 (r % 256))) 0 = 0x0000

/-- R122: `MKARP` twice in a row. -/
def Obligations.MkarpTwice : Prop :=
  ∀ s : State, ∃ t u : State, exec .mkarp s = .next t ∧ exec .mkarp t = .next u ∧
    u.block.fb.readBytes 0 6 = macBytes s.block.params.mymac ∧
    u.block.fb.readBytes 6 6 = macBytes s.block.params.mymac ∧
    u.block.fb.readBytes 22 6 = macBytes s.block.params.mymac ∧
    u.block.fb.readBytes 32 6 = macBytes s.block.params.mymac ∧
    u.block.fb.readBytes 28 4 = ipBytes s.block.params.myip ∧
    u.block.fb.readBytes 38 4 = ipBytes s.block.params.myip ∧
    u.block.fb.memRead 20 2 = 2 ∧ u.block.rlen = s.block.params.numbers.arpReplyLen ∧
    (s.block.params.numbers = Numbers.r6 → u.block.rlen = 42)

/-- R129: `MKECHO` twice in a row: the header verifies, the ICMP checksum is patched twice. -/
def Obligations.MkechoTwice : Prop :=
  ∀ s : State, ∃ t u : State, exec .mkecho s = .next t ∧ exec .mkecho t = .next u ∧
    u.block.fb.readBytes 0 6 = macBytes s.block.params.mymac ∧
    u.block.fb.readBytes 6 6 = macBytes s.block.params.mymac ∧
    u.block.fb.readBytes 26 4 = ipBytes s.block.params.myip ∧
    u.block.fb.readBytes 30 4 = ipBytes s.block.params.myip ∧
    cksum (u.block.fb.readBytes 14 20) 0 = 0x0000 ∧ u.block.byte 34 = 0x00 ∧
    u.block.fb.memRead 36 2 = fold16 (fold16 (s.block.fb.memRead 36 2 + 0x0800) + 0x0800)

/-- R61: classifying a reply the block just built. After `MKARP` of a frame that was a request, it is one again exactly
when the requester's address was `MYIP`; after `MKECHO` of an echo request for this device, likewise for `ISIPME`, and
it is no echo request. -/
def Obligations.RepliesReclassified : Prop :=
  ∀ s : State,
    (s.block.ArpForMe → ∃ t : State, exec .mkarp s = .next t ∧ (t.block.ArpForMe ↔ s.block.MyIpAt 28)) ∧
    (s.block.IpForMe → ∃ t : State, exec .mkecho s = .next t ∧
      (t.block.IpForMe ↔ s.block.MyIpAt 26) ∧ ¬ t.block.EchoRequest)

/-! ### The checksum unit (42_checksum.md) -/

/-- R13: `fold16` is the loop it is written as, its result fits 16 bits; `ocadd16` and `not16` as defined. -/
def Obligations.FoldIsTheLoop : Prop :=
  (∀ s, s < 0x10000 → fold16 s = s) ∧
  (∀ s, 0x10000 ≤ s → fold16 s = fold16 (s % 0x10000 + s / 0x10000)) ∧
  (∀ s, fold16 s ≤ 0xFFFF) ∧
  (∀ a b, ocadd16 a b = fold16 (a + b)) ∧ (∀ v, not16 v = 0xFFFF - v)

/-- R147: inserting the checksum of the range with its field zeroed makes the range verify, for every range, field
position and seed. -/
def Obligations.InsertedChecksumVerifies : Prop :=
  ∀ (s0 : List Byte) (seed j : Nat), 2 * j + 1 < s0.length → s0.getD (2 * j) 0 = 0 → s0.getD (2 * j + 1) 0 = 0 →
    let c := cksum s0 seed
    let s1 := (s0.set (2 * j) (BitVec.ofNat 8 (c / 256))).set (2 * j + 1) (BitVec.ofNat 8 (c % 256))
    cksum s1 seed = 0x0000 ∧ cksumRaw s1 seed = 0xFFFF

/-- R148: when the raw checksum is each of the two zeros, and what the checksum then is. -/
def Obligations.TheTwoZeros : Prop :=
  ∀ (bytes : List Byte) (seed : Nat),
    (cksumRaw bytes seed = 0x0000 ↔ seed = 0 ∧ ∀ x ∈ bytes, x = 0) ∧
    (cksumRaw bytes seed = 0xFFFF ↔ 0 < seed + wsum bytes ∧ (seed + wsum bytes) % 0xFFFF = 0) ∧
    (cksumRaw bytes seed = 0x0000 → cksum bytes seed = 0xFFFF) ∧
    (cksumRaw bytes seed = 0xFFFF → cksum bytes seed = 0x0000)

/-- R150, R153: the patch spelled out, and the same patch byte by byte, for all 65536 inputs. -/
def Obligations.PatchBytewise : Prop :=
  ∀ c : Half,
    (icmpPatch c).toNat = ocadd16 c.toNat 0x0800 ∧ 1 ≤ (icmpPatch c).toNat ∧
    (icmpPatch c).toNat = (if c.toNat + 0x0800 > 0xFFFF then (c.toNat + 0x0800) % 0x10000 + 1 else c.toNat + 0x0800) ∧
    (let hi := c.toNat / 256
     let lo := c.toNat % 256
     let hi1 := (hi + 8) % 256
     let lo1 := lo + (if hi > 0xF7 then 1 else 0)
     (icmpPatch c).toNat = if lo1 = 0x100 then (hi1 + 1) * 256 else hi1 * 256 + lo1)

/-- R146, R144, R6: `CSUM`, code 0x06: the result for a legal range and kind, and `raise Err` in each of the three error
cases; `adj` is `PLEN_ADJ`, 8. R146 writes `n < 8` and `n - 8`, R144 `n - PLEN_ADJ`: that the third error case is
`n < PLEN_ADJ` for another value too is the model's reading (log entry 20, DEDUCED). What `cksum` is, word by word, is
`WordSumByIndex`. -/
def Obligations.CsumResultOrErr : Prop :=
  decodeCommand 0x06 = some .csum ∧
  ∀ s : State,
    let off := s.block.coff.toNat
    let n := s.block.ccnt.toNat
    let k := s.block.ckind
    let adj := s.block.params.numbers.plenAdj
    let bad := off + n > s.block.params.bufCap.bytes ∨ k = 3 ∨ ((k = 1 ∨ k = 2) ∧ n < adj)
    (s.block.params.numbers = Numbers.r6 → adj = 8) ∧
    (bad → exec .csum s = .next { s with block := { s.block with err := true } }) ∧
    (¬ bad → ∃ v : Half, exec .csum s = .next { s with block := { s.block with csumr := v } } ∧
      (k = 0 → v.toNat = cksum (s.block.fb.readBytes off n) 0) ∧
      (k = 1 → v.toNat = cksum (s.block.fb.readBytes off n) (17 + (n - adj))) ∧
      (k = 2 → v.toNat = cksum (s.block.fb.readBytes off n) (6 + (n - adj))))

/-! ### Dispatch (43_poll.md) and the frame patterns (30_encoding.md) -/

/-- R160, R162: the four arms of `STEP`, code 0x07, in their priority, every test on the pre-state. -/
def Obligations.StepDispatches : Prop :=
  decodeCommand 0x07 = some .step ∧
  ∀ s : State,
    (s.block.ArpForMe → ∃ t : State, exec .mkarp s = .next t ∧
      exec .step s = .next { t with block := { t.block with cls := .arp, send := true } }) ∧
    (¬ s.block.ArpForMe → ¬ s.block.IpForMe →
      exec .step s = .next { s with block := { s.block with rlen := 0, cls := .notMe, send := false } }) ∧
    (¬ s.block.ArpForMe → s.block.IpForMe → s.block.EchoRequest → ∃ t : State, exec .mkecho s = .next t ∧
      exec .step s = .next { t with block := { t.block with cls := .echo, send := true } }) ∧
    (¬ s.block.ArpForMe → s.block.IpForMe → ¬ s.block.EchoRequest →
      exec .step s = .next { s with block := { s.block with rlen := 0, cls := .ipOther, send := false } })

/-- R78 to R82: the frame in the buffer decodes to the row whose pattern it matches; `ARP` and `IP_ME` never both
hold; every frame decodes. -/
def Obligations.FrameDecodesByPattern : Prop :=
  ∀ b : Block,
    (b.fetchFrame = .frameArp ↔ b.ArpForMe) ∧
    (b.fetchFrame = .frameEcho ↔ b.IpForMe ∧ b.EchoRequest) ∧
    (b.fetchFrame = .frameIpOther ↔ b.IpForMe ∧ ¬ b.EchoRequest) ∧
    (b.fetchFrame = .frameNotMe ↔ ¬ b.ArpForMe ∧ ¬ b.IpForMe) ∧
    ¬ (b.ArpForMe ∧ b.IpForMe)

/-- R87 against R160: `STEP` is the execution of the frame class that the first matching row of the table names. -/
def Obligations.StepRunsTheFrameRow : Prop :=
  ∀ s : State, exec .step s = exec s.block.fetchFrame s

/-- The four frame classes as instructions: each completes in every state with the action its row names, `MKARP` or
`MKECHO` with `SEND` set, or the drop (R87, R160; that they are instructions is the model's reading, log entry 13). -/
def Obligations.FrameRowsAct : Prop :=
  ∀ s : State,
    (∃ t : State, exec .mkarp s = .next t ∧
      exec .frameArp s = .next { t with block := { t.block with cls := .arp, send := true } }) ∧
    (∃ t : State, exec .mkecho s = .next t ∧
      exec .frameEcho s = .next { t with block := { t.block with cls := .echo, send := true } }) ∧
    exec .frameIpOther s = .next { s with block := { s.block with rlen := 0, cls := .ipOther, send := false } } ∧
    exec .frameNotMe s = .next { s with block := { s.block with rlen := 0, cls := .notMe, send := false } }

/-- What no instruction touches: the host's side, the identity, `LEN` (R21), the operand registers of `CSUM` (R28), the
event latch; `PHASE` but for `UPDATE`; `ERR` but for `CSUM` (R200); every byte at offset 42 and above (R51). -/
def Obligations.InstructionsFrame : Prop :=
  ∀ (i : Instr) (s t : State), exec i s = .next t →
    t.host = s.host ∧ t.block.params = s.block.params ∧ t.block.len = s.block.len ∧
    t.block.coff = s.block.coff ∧ t.block.ccnt = s.block.ccnt ∧ t.block.ckind = s.block.ckind ∧
    t.block.evtLatch = s.block.evtLatch ∧
    (i ≠ .update → t.block.phase = s.block.phase) ∧
    (i ≠ .csum → t.block.err = s.block.err) ∧
    (∀ a, 42 ≤ a → t.block.byte a = s.block.byte a)

/-! ### Encoding (30_encoding.md) -/

/-- R84, R85, R87: decode and encode agree. Commands both ways; frames with every don't-care byte at every value: the
class `IP_OTHER` but for fillings that make the frame an `ECHO`, the class `NOT_ME` for its all-zero frame. That a class is
encoded as a frame of 42 bytes with `LEN` 42 is the model's convention (log entry 14, DESIGN CHOICE), which is why the frame
clauses ask for gates of 42 or less (R6's are 14 and 34). -/
def Obligations.DecodeEncodeAgree : Prop :=
  (∀ (p : Params) (i : Instr), i.isCommand = true → decode p (encode p i) = some i) ∧
  (∀ (c : Byte) (i : Instr), decodeCommand c = some i ↔ encodeCommand i = some c) ∧
  ∀ p : Params, p.numbers.arpMinLen ≤ 42 → p.numbers.ipMinLen ≤ 42 →
    (∀ i : Instr, decode p (encode p i) = some i) ∧
    (∀ fill : Nat → Byte, decode p (encodeWith p fill .frameArp) = some .frameArp) ∧
    (∀ fill : Nat → Byte, decode p (encodeWith p fill .frameEcho) = some .frameEcho) ∧
    (∀ fill : Nat → Byte, ¬ (fill 23 = 0x01 ∧ fill 34 = 0x08) →
      decode p (encodeWith p fill .frameIpOther) = some .frameIpOther)

/-- Words written out from the spec's encodings decode to their instructions (R84, R85, R87): a sanity statement. How a word
is a number is the model's convention (log entry 14, DESIGN CHOICE): a word of at most 8 bits is a command; a longer one is
a frame of 42 bytes with `LEN` 42, byte 0 in bits 7:0, decoded for the instance whose `MYIP` is the address it carries. -/
def Obligations.WordsDecode : Prop :=
  decodeTableWord 8 0x01 = some .isarp ∧ decodeTableWord 8 0x05 = some .mkecho ∧
  decodeTableWord 8 0x06 = some .csum ∧ decodeTableWord 8 0x08 = some .update ∧
  decodeTableWord 8 0x00 = none ∧ decodeTableWord 8 0x09 = none ∧ decodeTableWord 8 0xFF = none ∧
  decodeTableWord 336 (0x0608 * 2 ^ 96 + 0xC800A8C0 * 2 ^ 304) = some .frameArp ∧
  decodeTableWord 336 (0x450008 * 2 ^ 96 + 0x01 * 2 ^ 184 + 0xC800A8C0 * 2 ^ 240 + 0x08 * 2 ^ 272) = some .frameEcho ∧
  decodeTableWord 336 (0x450008 * 2 ^ 96 + 0x11 * 2 ^ 184 + 0xC800A8C0 * 2 ^ 240) = some .frameIpOther

/-! ### The step of the machine -/

/-- A step runs the decoded command (10_state.md R27, 30_encoding.md R84): the byte written to `CMD` while IDLE. -/
def Obligations.StepRunsTheDecodedCommand : Prop :=
  ∀ (s : State) (code : Byte) (i : Instr), s.Performs (.wr 0x00 (code.setWidth 16)) → s.block.phase = .idle →
    decodeCommand code = some i → step s = exec i s.popInput

/-- A step runs the decoded frame: R165 says that `UPDATE` does `STEP` and then `tx` if `SEND = 1`, else goes back to `rx`.
That this `STEP` is `exec` of the class of the frame in the buffer, as an instruction of its own, is the model's reading
(log entry 13, DEDUCED), and so is the step that `PHASE` carries (log entry 7, DEDUCED). -/
def Obligations.StepRunsTheDecodedFrame : Prop :=
  ∀ s : State, s.blockTurn = true → s.block.phase = .run .step →
    ∃ t : State, exec s.block.fetchFrame s.taken = .next t ∧
      step s = .next { t with block :=
        { t.block with phase := if t.block.send then .run .tx else .run .rx } }

/-- The word placed is the word run, for commands: from every state, the next step runs the command placed. (How a word
comes to be next is the model's convention, log entry 14.) -/
def Obligations.PlacedCommandIsRunNext : Prop :=
  ∀ (s : State) (w : Nat) (i : Instr), w < 256 → decodeTableWord 8 w = some i →
    ∃ t : State, step (s.withFetchWord 8 w) = exec i t ∧ t.block = { s.block with phase := .idle } ∧ t.host = s.host

/-- The word placed is the word run, for frames (log entry 14): every word longer than a byte decodes; from every state of
an instance with gates of 42 or less (`decodeTableWord` reads with R6's, the frame has 42 bytes), the next step runs what it
decodes to on its 42 bytes, and the loop goes on. -/
def Obligations.PlacedFrameIsRunNext : Prop :=
  ∀ (s : State) (nbits w : Nat), 8 < nbits →
    s.block.params.numbers.arpMinLen ≤ 42 → s.block.params.numbers.ipMinLen ≤ 42 →
    ∃ (i : Instr) (t u : State), decodeTableWord nbits w = some i ∧ exec i t = .next u ∧
      t.block = { s.block with params := t.block.params, fb := t.block.fb, len := 42, phase := .run .step } ∧
      t.block.params = { s.block.params with myip := t.block.params.myip } ∧ t.host = s.host ∧
      (∀ a < 42, t.block.byte a = wordByte nbits w a) ∧ (∀ a, 42 ≤ a → t.block.byte a = s.block.byte a) ∧
      step (s.withFetchWord nbits w) =
        .next { u with block := { u.block with phase := if u.block.send then .run .tx else .run .rx } }

/-- R85: a reserved code sets `ERR` and changes nothing else. -/
def Obligations.ReservedCodeRaisesErr : Prop :=
  ∀ (s : State) (code : Byte), s.Performs (.wr 0x00 (code.setWidth 16)) → s.block.phase = .idle →
    (code = 0x00 ∨ 0x09 ≤ code.toNat) →
    step s = .next { s.popInput with block := { s.block with err := true } }

/-- R231: IDLE and nothing from outside: the block does nothing (that a step is then the identity is the model's form
of it, log entry 6). -/
def Obligations.IdleBlockDoesNothing : Prop :=
  ∀ s : State, s.block.phase = .idle → s.blockTurn = true → step s = .next s.taken

/-! ### The poll loop (43_poll.md R165, 44_host_access.md R181, R185) -/

/-- `UPDATE`, code 0x08: `PHASE <- RUN` at the first `rx`, nothing else; while RUN a second one does not start
(70_reset_and_hazards.md R240; it is refused as 93 U4 says, log entry 8). -/
def Obligations.UpdateStartsTheLoop : Prop :=
  decodeCommand 0x08 = some .update ∧
  ∀ s : State,
    (s.block.phase = .idle →
      exec .update s = .next { s with block := { s.block with phase := .run .rx } }) ∧
    (∀ u, s.block.phase = .run u → exec .update s = .refused .hostActionWhileRunning)

/-- `rx` with nothing queued (R181, R208, S5): nothing consumed, ring pointer unaltered, `LEN <- 0`, the loop ends. -/
def Obligations.RxOfAnEmptyQueueEndsTheLoop : Prop :=
  ∀ s : State, s.blockTurn = true → s.block.phase = .run .rx → s.host.queue = [] → s.block.evtLatch = false →
    step s = .next
      { block := { s.block with len := 0, phase := .idle },
        host := { s.taken.host with trace := .rx 0 :: s.host.trace } }

/-- `rx` of a frame whose CRC-valid bit is clear (R167, R181, S6), or of a CRC-valid one of declared length exactly 4, for
which `n` is 0 (R181; that the loop then ends on it is log entry 10): the frame is consumed, the ring pointer advanced, the
buffer not written; `LEN <- 0`, `rx` 0 is reported and the loop ends although further frames may be queued. Of a bit-clear
frame the length is not used, also below 4 (93 U6 leaves it open; log entry 9); that all this is one step is log entry 7. -/
def Obligations.RxOfABadFrameEndsTheLoop : Prop :=
  ∀ (s : State) (f : QueuedFrame) (rest : List QueuedFrame), s.blockTurn = true → s.block.phase = .run .rx →
    s.host.queue = f :: rest → (f.crcValid = false ∨ f.bytes.length = 4) → s.block.evtLatch = false →
    step s = .next
      { block := { s.block with len := 0, phase := .idle },
        host := { s.taken.host with queue := rest, ringPtr := f.next, trace := .rx 0 :: s.host.trace } }

/-- `rx` of a CRC-valid frame of declared length 5 or more, then the delivery (R165, R180, R181): `n` is the declared
length less 4, clamped to `BUF_CAP-1`; `FB[0..n-1]` are the frame's first `n` bytes, every other byte is as it was;
`LEN = n`; the frame is classified next. -/
def Obligations.RxDeliversAGoodFrame : Prop :=
  ∀ (s : State) (f : QueuedFrame) (rest : List QueuedFrame), s.pending = [] → s.block.phase = .run .rx →
    s.host.queue = f :: rest → f.crcValid = true → 5 ≤ f.bytes.length →
    let n := min (f.bytes.length - 4) (s.block.params.bufCap.bytes - 1)
    ∃ t : State, Sys2Proof.core.run 2 s = .next t ∧
      t.block = { s.block with fb := t.block.fb, len := BitVec.ofNat 16 n, phase := .run .step } ∧
      t.host = { s.host with queue := rest, ringPtr := f.next, trace := .rx n :: s.host.trace } ∧
      t.block.len.toNat = n ∧
      (∀ a < n, t.block.byte a = f.bytes.getD a 0) ∧
      (∀ a, n ≤ a → t.block.byte a = s.block.byte a)

/-- `rx` of a CRC-valid frame whose declared length is below 4: refused (93 U6; log entry 9). -/
def Obligations.RxOfAWrappedLengthIsRefused : Prop :=
  ∀ (s : State) (f : QueuedFrame) (rest : List QueuedFrame), s.blockTurn = true → s.block.phase = .run .rx →
    s.host.queue = f :: rest → f.crcValid = true → f.bytes.length < 4 →
    step s = .refused .rxDeclaredLengthBelow4

/-- `tx` (R165, R168, R185): the first `RLEN` bytes of the buffer are handed over; nothing else changes; `rx` is next. -/
def Obligations.TxHandsOverTheReply : Prop :=
  ∀ s : State, s.blockTurn = true → s.block.phase = .run .tx →
    ∃ data : List Byte, data.length = s.block.rlen.toNat ∧
      (∀ a < data.length, data.getD a 0 = s.block.byte a) ∧
      step s = .next
        { block := { s.block with phase := .run .rx },
          host := { s.taken.host with trace := .tx data :: s.host.trace } }

/-- The document's end-to-end scenario (S7) for every instance, requester, buffer content and 42-byte request: one
event, one queued resolution request for `MYIP`; exactly one `tx`, of 42 bytes, with the hardware addresses swapped,
between two `rx` calls; the loop ends. The instance has R6's numbers. That it takes six steps is the model's division of
`UPDATE` (log entry 7, DEDUCED). -/
def Obligations.OneRequestOneReply : Prop :=
  ∀ (s : State) (f : QueuedFrame), s.block.params.numbers = Numbers.r6 → s.block.phase = .idle →
    s.block.evtLatch = false → s.host.inputs = [.inTurn .evt] → s.host.cycle = [] → s.host.queue = [f] →
    f.crcValid = true → f.bytes.length = 46 →
    f.bytes.getD 12 0 = 0x08 → f.bytes.getD 13 0 = 0x06 →
    (∀ k < 4, f.bytes.getD (38 + k) 0 = (ipBytes s.block.params.myip).getD k 0) →
    ∃ (t : State) (data : List Byte), Sys2Proof.core.run 6 s = .next t ∧
      t.host.trace = .rx 0 :: .tx data :: .rx 42 :: s.host.trace ∧
      t.pending = [] ∧ t.host.queue = [] ∧ t.host.ringPtr = f.next ∧
      t.block = { s.block with fb := t.block.fb, len := 0, rlen := 42, cls := .arp, send := true } ∧
      data.length = 42 ∧
      (∀ k < 6, data.getD k 0 = f.bytes.getD (6 + k) 0) ∧
      (∀ k < 6, data.getD (6 + k) 0 = (macBytes s.block.params.mymac).getD k 0) ∧
      (∀ k < 8, data.getD (12 + k) 0 = f.bytes.getD (12 + k) 0) ∧
      data.getD 20 0 = 0x00 ∧ data.getD 21 0 = 0x02 ∧
      (∀ k < 6, data.getD (22 + k) 0 = (macBytes s.block.params.mymac).getD k 0) ∧
      (∀ k < 4, data.getD (28 + k) 0 = (ipBytes s.block.params.myip).getD k 0) ∧
      (∀ k < 6, data.getD (32 + k) 0 = f.bytes.getD (22 + k) 0) ∧
      (∀ k < 4, data.getD (38 + k) 0 = f.bytes.getD (28 + k) 0)

/-- A delivered frame of class `NOT_ME` or `IP_OTHER` is dropped (R82, R165): no `tx`, buffer as delivered; the next
`rx` follows. -/
def Obligations.DroppedFramesSendNothing : Prop :=
  ∀ s : State, s.pending = [] → s.block.phase = .run .step → s.host.queue = [] → s.block.evtLatch = false →
    ¬ s.block.ArpForMe → ¬ (s.block.IpForMe ∧ s.block.EchoRequest) →
    ∃ c : FrameClass, (c = .ipOther ↔ s.block.IpForMe) ∧ (c = .notMe ↔ ¬ s.block.IpForMe) ∧
      Sys2Proof.core.run 2 s = .next
        { block := { s.block with len := 0, rlen := 0, cls := c, send := false, phase := .idle },
          host := { s.host with trace := .rx 0 :: s.host.trace } }

/-- R166, "when": a running `UPDATE` with only CRC-valid frames of declared length 5 or more queued and none arriving
ends: within four steps a frame and one more it is IDLE, the queue empty, `LEN = 0`, one `rx` call made for each frame
and one more, which returned 0. The premise, that nothing arrives and nothing bad is queued, is the one R166 asks for; the
bound counts machine steps, the model's division of `UPDATE` (log entry 7, DEDUCED). -/
def Obligations.UpdateDrainsTheQueue : Prop :=
  ∀ s : State, s.pending = [] → s.block.phase = .run .rx → s.block.evtLatch = false →
    (∀ f ∈ s.host.queue, f.crcValid = true ∧ 5 ≤ f.bytes.length) →
    ∃ (k : Nat) (t : State), k ≤ 4 * s.host.queue.length + 1 ∧ Sys2Proof.core.run k s = .next t ∧
      t.block.phase = .idle ∧ t.block.len = 0 ∧ t.host.queue = [] ∧ t.block.err = s.block.err ∧
      t.host.trace.head? = some (.rx 0) ∧
      t.host.trace.countP Event.isRx = s.host.trace.countP Event.isRx + s.host.queue.length + 1

/-- R166, "only when": a step that ends a running `UPDATE` called `rx` and got 0, or is a reset (R230). And R247, "a flood
of frames never ends it" (93 U9): with a CRC-valid frame of declared length 5 or more arriving before every step of the
block, for ever, and none but such frames queued, a running `UPDATE` runs on: after any number of steps it is RUN, and
nothing was refused. (How arrivals for ever are written down is log entries 5 and 23.) -/
def Obligations.UpdateEndsOnlyOnRxZero : Prop :=
  (∀ s t : State, s.block.phase.busy = true → step s = .next t → t.block.phase = .idle →
    (t.host.trace = .rx 0 :: s.host.trace ∧ t.block.len = 0) ∨ ∃ contents, s.Performs (.reset contents)) ∧
  (∀ (s : State) (f : QueuedFrame), s.block.phase.busy = true → f.crcValid = true → 5 ≤ f.bytes.length →
    (∀ g ∈ s.host.queue, g.crcValid = true ∧ 5 ≤ g.bytes.length) →
    s.host.inputs = [] → s.host.cycle = [.atOnce (.arrive f), .tick] →
    ∀ k, ∃ t : State, Sys2Proof.core.run k s = .next t ∧ t.block.phase.busy = true)

/-! ### Events and exclusion (60_exceptions.md R206, R207; 20_memory.md R58) -/

/-- R206: an `EVT` edge while IDLE starts one `UPDATE`, exactly as the command does. -/
def Obligations.EventStartsUpdate : Prop :=
  ∀ s : State, s.Performs .evt → s.block.phase = .idle →
    step s = exec .update s.popInput ∧
    step s = .next { s.popInput with block := { s.block with phase := .run .rx } }

/-- R207, for both values of `EVT_WHILE_BUSY`: an edge while RUN has no effect, or sets the latch (again absorbed); when
the running `UPDATE` ends with the latch set, it is cleared and one more starts at once. That "at once" is RUN to RUN with
no IDLE between, in the `rx` step itself, is the model's reading (log entries 19 and 7, DEDUCED); so is which frames end the
loop: a bit-clear one of any length (log entry 9), a CRC-valid one of declared length 4 (log entry 10). -/
def Obligations.EventWhileBusy : Prop :=
  ∀ s : State,
    (s.Performs .evt → s.block.phase.busy = true → s.block.params.evtWhileBusy = .ignored →
      step s = .next s.popInput) ∧
    (s.Performs .evt → s.block.phase.busy = true → s.block.params.evtWhileBusy = .latched →
      step s = .next { s.popInput with block := { s.block with evtLatch := true } }) ∧
    (s.blockTurn = true → s.block.phase = .run .rx → s.host.queue = [] → s.block.evtLatch = true →
      step s = .next
        { block := { s.block with len := 0, evtLatch := false, phase := .run .rx },
          host := { s.taken.host with trace := .rx 0 :: s.host.trace } }) ∧
    (∀ f rest, s.blockTurn = true → s.block.phase = .run .rx → s.host.queue = f :: rest →
      (f.crcValid = false ∨ f.bytes.length = 4) → s.block.evtLatch = true →
      step s = .next
        { block := { s.block with len := 0, evtLatch := false, phase := .run .rx },
          host := { s.taken.host with queue := rest, ringPtr := f.next, trace := .rx 0 :: s.host.trace } })

/-- R58: while RUN the host may read `STATUS`, which shows bit 5 set and changes nothing; every other host action is
refused (what a breach does is open, 93 U4; the refusal is log entry 8). -/
def Obligations.HostExclusionWhileRunning : Prop :=
  ∀ (s : State) (a : Action), s.block.phase.busy = true → s.pending.head? = some (.atOnce a) →
    (a = .rd 0x01 →
      step s = .next { s.popInput with host :=
        { s.popInput.host with trace := .read 0x01 (s.block.statusByte.setWidth 16) :: s.host.trace } } ∧
      s.block.statusByte.getLsbD 5 = true) ∧
    ((∃ data, a = .load data) ∨ (∃ n, a = .unload n) ∨ (∃ x, a = .peek x) ∨ (∃ x v, a = .poke x v) ∨
        (∃ reg v, a = .wr reg v) ∨ (∃ reg, a = .rd reg ∧ reg ≠ 0x01) →
      step s = .refused .hostActionWhileRunning)

/-! ### Host access (44_host_access.md), each while IDLE -/

/-- R180: `LOAD`. -/
def Obligations.LoadDeliversOrErr : Prop :=
  ∀ (s : State) (data : List Byte), s.Performs (.load data) → s.block.phase = .idle →
    (data = [] → step s = .next { s.popInput with block := { s.block with len := 0 } }) ∧
    (1 ≤ data.length → data.length ≤ s.block.params.bufCap.bytes - 1 → ∃ t : State, step s = .next t ∧
      t = { s.popInput with block := { s.block with fb := t.block.fb, len := BitVec.ofNat 16 data.length } } ∧
      t.block.len.toNat = data.length ∧
      (∀ a < data.length, t.block.byte a = data.getD a 0) ∧
      (∀ a, data.length ≤ a → t.block.byte a = s.block.byte a)) ∧
    (s.block.params.bufCap.bytes ≤ data.length →
      step s = .next { s.popInput with block := { s.block with err := true } })

/-- R182: `UNLOAD`. The spec does not say what an errored one returns: nothing is the model's reading (log entry 12,
DEDUCED). -/
def Obligations.UnloadReturnsTheBytes : Prop :=
  ∀ (s : State) (n : Nat), s.Performs (.unload n) → s.block.phase = .idle →
    (n ≤ s.block.params.bufCap.bytes → ∃ data : List Byte, data.length = n ∧
      (∀ a < n, data.getD a 0 = s.block.byte a) ∧
      step s = .next { s.popInput with host :=
        { s.popInput.host with trace := .unloaded data :: s.host.trace } }) ∧
    (s.block.params.bufCap.bytes < n →
      step s = .next { s.popInput with block := { s.block with err := true } })

/-- R183: `PEEK` and `POKE`, inside the buffer and outside it. -/
def Obligations.PeekAndPoke : Prop :=
  ∀ (s : State) (a : Nat) (v : Byte), s.block.phase = .idle →
    (s.Performs (.peek a) → a < s.block.params.bufCap.bytes →
      step s = .next { s.popInput with host :=
        { s.popInput.host with trace := .peeked a (s.block.byte a) :: s.host.trace } }) ∧
    (s.Performs (.peek a) → s.block.params.bufCap.bytes ≤ a →
      step s = .next
        { block := { s.block with err := true },
          host := { s.popInput.host with trace := .peeked a 0 :: s.host.trace } }) ∧
    (s.Performs (.poke a v) → a < s.block.params.bufCap.bytes → ∃ t : State, step s = .next t ∧
      t = { s.popInput with block := { s.block with fb := t.block.fb } } ∧
      t.block.byte a = v ∧ (∀ x, x ≠ a → t.block.byte x = s.block.byte x)) ∧
    (s.Performs (.poke a v) → s.block.params.bufCap.bytes ≤ a →
      step s = .next { s.popInput with block := { s.block with err := true } })

/-- R30, R184, reads: the value of every register by number, 0 for `CMD` and every reserved number; nothing changes. -/
def Obligations.RegisterReads : Prop :=
  ∀ (s : State) (reg : Byte), s.Performs (.rd reg) → s.block.phase = .idle →
    ∃ v : Half,
      step s = .next { s.popInput with host := { s.popInput.host with trace := .read reg v :: s.host.trace } } ∧
      (reg = 0x01 → v.toNat = s.block.statusByte.toNat) ∧ (reg = 0x02 → v = s.block.len) ∧
      (reg = 0x03 → v = s.block.rlen) ∧ (reg = 0x04 → v = s.block.csumr) ∧ (reg = 0x05 → v = s.block.coff) ∧
      (reg = 0x06 → v = s.block.ccnt) ∧ (reg = 0x07 → v.toNat = s.block.ckind.toNat) ∧
      (reg = 0x08 → v.toNat = s.block.params.bufCap.bytes) ∧
      (∀ k < 6, reg.toNat = 0x10 + k → v.toNat = ((macBytes s.block.params.mymac).getD k 0).toNat) ∧
      (∀ k < 4, reg.toNat = 0x18 + k → v.toNat = ((ipBytes s.block.params.myip).getD k 0).toNat) ∧
      (reg = 0x00 ∨ (0x09 ≤ reg.toNat ∧ reg.toNat ≤ 0x0F) ∨ reg = 0x16 ∨ reg = 0x17 ∨ 0x1C ≤ reg.toNat → v = 0)

/-- R30, R184, writes of every register but `CMD`: the clamp of `LEN`, the operands of `CSUM`, `raise Err` for every
read-only or reserved number. -/
def Obligations.RegisterWrites : Prop :=
  ∀ (s : State) (reg : Byte) (v : Half), s.Performs (.wr reg v) → s.block.phase = .idle →
    (reg = 0x02 → ∃ w : Half, w.toNat = min v.toNat (s.block.params.bufCap.bytes - 1) ∧
      step s = .next { s.popInput with block := { s.block with len := w } }) ∧
    (reg = 0x05 → step s = .next { s.popInput with block := { s.block with coff := v } }) ∧
    (reg = 0x06 → step s = .next { s.popInput with block := { s.block with ccnt := v } }) ∧
    (reg = 0x07 → ∃ w : BitVec 2, w.toNat = v.toNat % 4 ∧
      step s = .next { s.popInput with block := { s.block with ckind := w } }) ∧
    (reg ∉ [0x00, 0x02, 0x05, 0x06, 0x07] →
      step s = .next { s.popInput with block := { s.block with err := true } })

/-- R25, R26: the bits of `STATUS`. -/
def Obligations.StatusBits : Prop :=
  ∀ b : Block,
    b.statusByte.getLsbD 0 = b.matched ∧ b.statusByte.getLsbD 1 = b.send ∧
    (b.statusByte.toNat / 4 % 4 = match b.cls with | .notMe => 0 | .arp => 1 | .echo => 2 | .ipOther => 3) ∧
    b.statusByte.getLsbD 4 = b.err ∧ (b.statusByte.getLsbD 5 = true ↔ b.phase ≠ .idle) ∧
    b.statusByte.toNat / 64 = 0

/-! ### Errors and reset -/

/-- R203: `ERR` is sticky: once set, only a reset leaves it clear. -/
def Obligations.ErrIsSticky : Prop :=
  ∀ s t : State, s.block.err = true → step s = .next t →
    t.block.err = true ∨ ∃ contents, s.Performs (.reset contents)

/-- R203: "later operations run as if it were clear": with `ERR` set, a step that is no read of `STATUS` does the same as
with `ERR` clear, up to the bit itself. -/
def Obligations.ErrDoesNotStopTheBlock : Prop :=
  ∀ s t : State, ¬ s.Performs (.rd 0x01) → step { s with block := { s.block with err := false } } = .next t →
    ∃ e : Bool, step { s with block := { s.block with err := true } } =
      .next { t with block := { t.block with err := e } }

/-- R202, R200: `ERR` comes from misuse of the interface alone. No step of the block's own sets it, whatever the frame;
a well-formed action does not set it, a `CSUM` command with legal operands included, and no arriving frame does, well-formed
or not; any other ill-formed action sets it and changes nothing else of the block. A value of 16 bits written to `CMD` is
taken through its low byte (log entry 11, DESIGN CHOICE: the model's convention for values above 255). What an arriving
frame does, at any time: it joins the end of the chip's queue and does not touch the block (R15; log entry 22). -/
def Obligations.OnlyMisuseSetsErr : Prop :=
  (∀ s t : State, s.blockTurn = true → step s = .next t → t.block.err = s.block.err) ∧
  (∀ (s t : State) (a : Action), s.Performs a → step s = .next t →
    (a.wellFormed s.block.params = true ∨ ∃ f, a = .arrive f) →
    (∀ reg v, a = .wr reg v → reg = 0x00 → decodeCommand (v.setWidth 8) = some .csum → s.block.csumLegal = true) →
    (∀ contents, a ≠ .reset contents) → t.block.err = s.block.err) ∧
  (∀ (s t : State) (a : Action), s.Performs a → step s = .next t → a.wellFormed s.block.params = false →
    (∀ f, a ≠ .arrive f) → t.block = { s.block with err := true }) ∧
  (∀ (s : State) (f : QueuedFrame), s.Performs (.arrive f) →
    step s = .next { s.popInput with host := { s.popInput.host with queue := s.host.queue ++ [f] } })

/-- R202: the causes of `ERR` are "none of them reachable from `UPDATE` or from any frame content": with no host action
to come but events and arriving frames, once or for ever, a run from a state with `ERR` clear never sets it, whatever frames
are queued or arrive, for any number of steps. -/
def Obligations.ReceivedFramesNeverSetErr : Prop :=
  ∀ s : State,
    (∀ i ∈ s.host.inputs ++ s.host.cycle, i = .tick ∨
      ∃ a, (i = .atOnce a ∨ i = .inTurn a) ∧ (a = .evt ∨ ∃ f, a = .arrive f)) →
    ¬ s.GoneWrong → SafeRun s

/-- R22, R29, R6 ("no operation changes them"): no step changes the identity, the capacity or another parameter. -/
def Obligations.IdentityNeverChanges : Prop :=
  ∀ s t : State, step s = .next t → t.block.params = s.block.params

/-- R33, R230: reset, at any time, also in a running `UPDATE`: every register and flag at its reset value, IDLE, latch
clear, the instance kept, the buffer holding whatever it then holds, here `contents`. (That the host's side is kept is
log entry 27.) -/
def Obligations.ResetPutsEveryRegister : Prop :=
  ∀ (s : State) (contents : List Byte), s.Performs (.reset contents) →
    ∃ t : State, step s = .next t ∧ t.host = s.popInput.host ∧
      t.block = { params := s.block.params, fb := t.block.fb, len := 0, rlen := 0, csumr := 0, coff := 0, ccnt := 0,
                  ckind := 0, matched := false, send := false, cls := .notMe, err := false, phase := .idle,
                  evtLatch := false } ∧
      t.block.statusByte = 0x00 ∧
      (∀ a, a < contents.length → a < s.block.params.bufCap.bytes → t.block.byte a = contents.getD a 0)

/-- R186, R6: construction clamps the requested capacity to 1500 and captures the identity and the other parameters; a
clamped capacity below 43 is no instance (R6). With the numbers R6 gives, 14, 34, 42, 64 and 8, the instance meets the
invariant. -/
def Obligations.ConstructionClampsCapacity : Prop :=
  ∀ (mac : Mac) (ip : Ip) (requested : Nat) (evt : EvtWhileBusy) (numbers : Numbers) (contents : List Byte),
    (43 ≤ requested → ∃ t : State, construct mac ip requested evt numbers contents = some t ∧
      t.block.params.mymac = mac ∧ t.block.params.myip = ip ∧ t.block.params.evtWhileBusy = evt ∧
      t.block.params.bufCap.bytes = min requested 1500 ∧ t.block.params.numbers = numbers ∧
      t = State.resetWith t.block.params t.block.fb ∧
      (∀ a, a < contents.length → a < min requested 1500 → t.block.byte a = contents.getD a 0) ∧
      (t.block.params.numbersOk = true → t.Inv) ∧
      (numbers = { arpMinLen := 14, ipMinLen := 34, arpReplyLen := 42, replyTtl := 64, plenAdj := 8 } → t.Inv)) ∧
    (requested < 43 → construct mac ip requested evt numbers contents = none)

/-! ### The invariant -/

/-- The invariant holds after reset, for every instance whose numbers fit its buffer (every one with R6's does), whatever
canonical contents the buffer holds. -/
def Obligations.ResetMeetsTheInvariant : Prop :=
  State.reset.Inv ∧
  (∀ p : Params, p.numbers = Numbers.r6 → p.numbersOk = true) ∧
  ∀ (p : Params) (m : Memory), p.numbersOk = true → m.wf = true → m.below p.bufCap.bytes = true →
    (State.resetWith p m).Inv

/-- Every step keeps the invariant: the numbers stay those of a fitting instance (R6), the memory stays canonical and
inside the buffer (R20, R56), `LEN` and `RLEN` stay in 0 to `BUF_CAP-1` (R21, R30), what `UPDATE` carries from step to step
stays legal (R180, R185), the event latch is set only in a running `UPDATE` of an instance that latches (R207). -/
def Obligations.EveryStepKeepsTheInvariant : Prop :=
  ∀ s t : State, s.Inv → step s = .next t → t.Inv

/-! ### The word sum, by index -/

/-- R140, R53, R142: the word sum by index: word `k` is `s[2k] * 256 + s[2k+1]`, a lone last byte counts `s[n-1] * 256`, no
carry is lost, the empty sum is 0; a range of the buffer is paired from its own start, whether that is even or odd; the raw
checksum is the fold of seed and sum, the checksum 0xFFFF less it. -/
def Obligations.WordSumByIndex : Prop :=
  (∀ s : List Byte, wsum s =
    ((List.range (s.length / 2)).map (fun k => (s.getD (2 * k) 0).toNat * 256 + (s.getD (2 * k + 1) 0).toNat)).sum
      + if s.length % 2 = 1 then (s.getD (s.length - 1) 0).toNat * 256 else 0) ∧
  (∀ (m : Memory) (a n : Nat), wsum (m.readBytes a n) =
    ((List.range (n / 2)).map (fun k => (m.read (a + 2 * k)).toNat * 256 + (m.read (a + (2 * k + 1))).toNat)).sum
      + if n % 2 = 1 then (m.read (a + (n - 1))).toNat * 256 else 0) ∧
  (∀ (s : List Byte) (seed : Nat), cksumRaw s seed = fold16 (seed + wsum s) ∧ cksumRaw s seed ≤ 0xFFFF ∧
    cksum s seed = 0xFFFF - fold16 (seed + wsum s))
end

