-- ==== Sys2Proof/Laws/State.lean ====
section
/-! SUPPORT. One lemma per field per update of the state, so that no later proof unfolds a record update. -/

namespace Sys2Proof.Machine

@[simp] theorem Block.params_setMatch (b : Block) (r : Bool) : (b.setMatch r).params = b.params := rfl
@[simp] theorem Block.fb_setMatch (b : Block) (r : Bool) : (b.setMatch r).fb = b.fb := rfl
@[simp] theorem Block.len_setMatch (b : Block) (r : Bool) : (b.setMatch r).len = b.len := rfl
@[simp] theorem Block.rlen_setMatch (b : Block) (r : Bool) : (b.setMatch r).rlen = b.rlen := rfl
@[simp] theorem Block.csumr_setMatch (b : Block) (r : Bool) : (b.setMatch r).csumr = b.csumr := rfl
@[simp] theorem Block.coff_setMatch (b : Block) (r : Bool) : (b.setMatch r).coff = b.coff := rfl
@[simp] theorem Block.ccnt_setMatch (b : Block) (r : Bool) : (b.setMatch r).ccnt = b.ccnt := rfl
@[simp] theorem Block.ckind_setMatch (b : Block) (r : Bool) : (b.setMatch r).ckind = b.ckind := rfl
@[simp] theorem Block.matched_setMatch (b : Block) (r : Bool) : (b.setMatch r).matched = r := rfl
@[simp] theorem Block.send_setMatch (b : Block) (r : Bool) : (b.setMatch r).send = b.send := rfl
@[simp] theorem Block.cls_setMatch (b : Block) (r : Bool) : (b.setMatch r).cls = b.cls := rfl
@[simp] theorem Block.err_setMatch (b : Block) (r : Bool) : (b.setMatch r).err = b.err := rfl
@[simp] theorem Block.phase_setMatch (b : Block) (r : Bool) : (b.setMatch r).phase = b.phase := rfl
@[simp] theorem Block.evtLatch_setMatch (b : Block) (r : Bool) : (b.setMatch r).evtLatch = b.evtLatch := rfl
@[simp] theorem Block.cap_setMatch (b : Block) (r : Bool) : (b.setMatch r).cap = b.cap := rfl

@[simp] theorem Block.params_setVerdict (b : Block) (c : FrameClass) (q : Bool) : (b.setVerdict c q).params = b.params := rfl
@[simp] theorem Block.fb_setVerdict (b : Block) (c : FrameClass) (q : Bool) : (b.setVerdict c q).fb = b.fb := rfl
@[simp] theorem Block.len_setVerdict (b : Block) (c : FrameClass) (q : Bool) : (b.setVerdict c q).len = b.len := rfl
@[simp] theorem Block.rlen_setVerdict (b : Block) (c : FrameClass) (q : Bool) : (b.setVerdict c q).rlen = b.rlen := rfl
@[simp] theorem Block.csumr_setVerdict (b : Block) (c : FrameClass) (q : Bool) : (b.setVerdict c q).csumr = b.csumr := rfl
@[simp] theorem Block.coff_setVerdict (b : Block) (c : FrameClass) (q : Bool) : (b.setVerdict c q).coff = b.coff := rfl
@[simp] theorem Block.ccnt_setVerdict (b : Block) (c : FrameClass) (q : Bool) : (b.setVerdict c q).ccnt = b.ccnt := rfl
@[simp] theorem Block.ckind_setVerdict (b : Block) (c : FrameClass) (q : Bool) : (b.setVerdict c q).ckind = b.ckind := rfl
@[simp] theorem Block.matched_setVerdict (b : Block) (c : FrameClass) (q : Bool) : (b.setVerdict c q).matched = b.matched := rfl
@[simp] theorem Block.send_setVerdict (b : Block) (c : FrameClass) (q : Bool) : (b.setVerdict c q).send = q := rfl
@[simp] theorem Block.cls_setVerdict (b : Block) (c : FrameClass) (q : Bool) : (b.setVerdict c q).cls = c := rfl
@[simp] theorem Block.err_setVerdict (b : Block) (c : FrameClass) (q : Bool) : (b.setVerdict c q).err = b.err := rfl
@[simp] theorem Block.phase_setVerdict (b : Block) (c : FrameClass) (q : Bool) : (b.setVerdict c q).phase = b.phase := rfl
@[simp] theorem Block.evtLatch_setVerdict (b : Block) (c : FrameClass) (q : Bool) : (b.setVerdict c q).evtLatch = b.evtLatch := rfl
@[simp] theorem Block.cap_setVerdict (b : Block) (c : FrameClass) (q : Bool) : (b.setVerdict c q).cap = b.cap := rfl

@[simp] theorem Block.params_setFb (b : Block) (m : Memory) : (b.setFb m).params = b.params := rfl
@[simp] theorem Block.fb_setFb (b : Block) (m : Memory) : (b.setFb m).fb = m := rfl
@[simp] theorem Block.len_setFb (b : Block) (m : Memory) : (b.setFb m).len = b.len := rfl
@[simp] theorem Block.rlen_setFb (b : Block) (m : Memory) : (b.setFb m).rlen = b.rlen := rfl
@[simp] theorem Block.csumr_setFb (b : Block) (m : Memory) : (b.setFb m).csumr = b.csumr := rfl
@[simp] theorem Block.coff_setFb (b : Block) (m : Memory) : (b.setFb m).coff = b.coff := rfl
@[simp] theorem Block.ccnt_setFb (b : Block) (m : Memory) : (b.setFb m).ccnt = b.ccnt := rfl
@[simp] theorem Block.ckind_setFb (b : Block) (m : Memory) : (b.setFb m).ckind = b.ckind := rfl
@[simp] theorem Block.matched_setFb (b : Block) (m : Memory) : (b.setFb m).matched = b.matched := rfl
@[simp] theorem Block.send_setFb (b : Block) (m : Memory) : (b.setFb m).send = b.send := rfl
@[simp] theorem Block.cls_setFb (b : Block) (m : Memory) : (b.setFb m).cls = b.cls := rfl
@[simp] theorem Block.err_setFb (b : Block) (m : Memory) : (b.setFb m).err = b.err := rfl
@[simp] theorem Block.phase_setFb (b : Block) (m : Memory) : (b.setFb m).phase = b.phase := rfl
@[simp] theorem Block.evtLatch_setFb (b : Block) (m : Memory) : (b.setFb m).evtLatch = b.evtLatch := rfl
@[simp] theorem Block.cap_setFb (b : Block) (m : Memory) : (b.setFb m).cap = b.cap := rfl

@[simp] theorem Block.params_setLen (b : Block) (v : Half) : (b.setLen v).params = b.params := rfl
@[simp] theorem Block.fb_setLen (b : Block) (v : Half) : (b.setLen v).fb = b.fb := rfl
@[simp] theorem Block.len_setLen (b : Block) (v : Half) : (b.setLen v).len = v := rfl
@[simp] theorem Block.rlen_setLen (b : Block) (v : Half) : (b.setLen v).rlen = b.rlen := rfl
@[simp] theorem Block.csumr_setLen (b : Block) (v : Half) : (b.setLen v).csumr = b.csumr := rfl
@[simp] theorem Block.coff_setLen (b : Block) (v : Half) : (b.setLen v).coff = b.coff := rfl
@[simp] theorem Block.ccnt_setLen (b : Block) (v : Half) : (b.setLen v).ccnt = b.ccnt := rfl
@[simp] theorem Block.ckind_setLen (b : Block) (v : Half) : (b.setLen v).ckind = b.ckind := rfl
@[simp] theorem Block.matched_setLen (b : Block) (v : Half) : (b.setLen v).matched = b.matched := rfl
@[simp] theorem Block.send_setLen (b : Block) (v : Half) : (b.setLen v).send = b.send := rfl
@[simp] theorem Block.cls_setLen (b : Block) (v : Half) : (b.setLen v).cls = b.cls := rfl
@[simp] theorem Block.err_setLen (b : Block) (v : Half) : (b.setLen v).err = b.err := rfl
@[simp] theorem Block.phase_setLen (b : Block) (v : Half) : (b.setLen v).phase = b.phase := rfl
@[simp] theorem Block.evtLatch_setLen (b : Block) (v : Half) : (b.setLen v).evtLatch = b.evtLatch := rfl
@[simp] theorem Block.cap_setLen (b : Block) (v : Half) : (b.setLen v).cap = b.cap := rfl

@[simp] theorem Block.params_setRlen (b : Block) (v : Half) : (b.setRlen v).params = b.params := rfl
@[simp] theorem Block.fb_setRlen (b : Block) (v : Half) : (b.setRlen v).fb = b.fb := rfl
@[simp] theorem Block.len_setRlen (b : Block) (v : Half) : (b.setRlen v).len = b.len := rfl
@[simp] theorem Block.rlen_setRlen (b : Block) (v : Half) : (b.setRlen v).rlen = v := rfl
@[simp] theorem Block.csumr_setRlen (b : Block) (v : Half) : (b.setRlen v).csumr = b.csumr := rfl
@[simp] theorem Block.coff_setRlen (b : Block) (v : Half) : (b.setRlen v).coff = b.coff := rfl
@[simp] theorem Block.ccnt_setRlen (b : Block) (v : Half) : (b.setRlen v).ccnt = b.ccnt := rfl
@[simp] theorem Block.ckind_setRlen (b : Block) (v : Half) : (b.setRlen v).ckind = b.ckind := rfl
@[simp] theorem Block.matched_setRlen (b : Block) (v : Half) : (b.setRlen v).matched = b.matched := rfl
@[simp] theorem Block.send_setRlen (b : Block) (v : Half) : (b.setRlen v).send = b.send := rfl
@[simp] theorem Block.cls_setRlen (b : Block) (v : Half) : (b.setRlen v).cls = b.cls := rfl
@[simp] theorem Block.err_setRlen (b : Block) (v : Half) : (b.setRlen v).err = b.err := rfl
@[simp] theorem Block.phase_setRlen (b : Block) (v : Half) : (b.setRlen v).phase = b.phase := rfl
@[simp] theorem Block.evtLatch_setRlen (b : Block) (v : Half) : (b.setRlen v).evtLatch = b.evtLatch := rfl
@[simp] theorem Block.cap_setRlen (b : Block) (v : Half) : (b.setRlen v).cap = b.cap := rfl

@[simp] theorem Block.params_setCsumr (b : Block) (v : Half) : (b.setCsumr v).params = b.params := rfl
@[simp] theorem Block.fb_setCsumr (b : Block) (v : Half) : (b.setCsumr v).fb = b.fb := rfl
@[simp] theorem Block.len_setCsumr (b : Block) (v : Half) : (b.setCsumr v).len = b.len := rfl
@[simp] theorem Block.rlen_setCsumr (b : Block) (v : Half) : (b.setCsumr v).rlen = b.rlen := rfl
@[simp] theorem Block.csumr_setCsumr (b : Block) (v : Half) : (b.setCsumr v).csumr = v := rfl
@[simp] theorem Block.coff_setCsumr (b : Block) (v : Half) : (b.setCsumr v).coff = b.coff := rfl
@[simp] theorem Block.ccnt_setCsumr (b : Block) (v : Half) : (b.setCsumr v).ccnt = b.ccnt := rfl
@[simp] theorem Block.ckind_setCsumr (b : Block) (v : Half) : (b.setCsumr v).ckind = b.ckind := rfl
@[simp] theorem Block.matched_setCsumr (b : Block) (v : Half) : (b.setCsumr v).matched = b.matched := rfl
@[simp] theorem Block.send_setCsumr (b : Block) (v : Half) : (b.setCsumr v).send = b.send := rfl
@[simp] theorem Block.cls_setCsumr (b : Block) (v : Half) : (b.setCsumr v).cls = b.cls := rfl
@[simp] theorem Block.err_setCsumr (b : Block) (v : Half) : (b.setCsumr v).err = b.err := rfl
@[simp] theorem Block.phase_setCsumr (b : Block) (v : Half) : (b.setCsumr v).phase = b.phase := rfl
@[simp] theorem Block.evtLatch_setCsumr (b : Block) (v : Half) : (b.setCsumr v).evtLatch = b.evtLatch := rfl
@[simp] theorem Block.cap_setCsumr (b : Block) (v : Half) : (b.setCsumr v).cap = b.cap := rfl

@[simp] theorem Block.params_setCoff (b : Block) (v : Half) : (b.setCoff v).params = b.params := rfl
@[simp] theorem Block.fb_setCoff (b : Block) (v : Half) : (b.setCoff v).fb = b.fb := rfl
@[simp] theorem Block.len_setCoff (b : Block) (v : Half) : (b.setCoff v).len = b.len := rfl
@[simp] theorem Block.rlen_setCoff (b : Block) (v : Half) : (b.setCoff v).rlen = b.rlen := rfl
@[simp] theorem Block.csumr_setCoff (b : Block) (v : Half) : (b.setCoff v).csumr = b.csumr := rfl
@[simp] theorem Block.coff_setCoff (b : Block) (v : Half) : (b.setCoff v).coff = v := rfl
@[simp] theorem Block.ccnt_setCoff (b : Block) (v : Half) : (b.setCoff v).ccnt = b.ccnt := rfl
@[simp] theorem Block.ckind_setCoff (b : Block) (v : Half) : (b.setCoff v).ckind = b.ckind := rfl
@[simp] theorem Block.matched_setCoff (b : Block) (v : Half) : (b.setCoff v).matched = b.matched := rfl
@[simp] theorem Block.send_setCoff (b : Block) (v : Half) : (b.setCoff v).send = b.send := rfl
@[simp] theorem Block.cls_setCoff (b : Block) (v : Half) : (b.setCoff v).cls = b.cls := rfl
@[simp] theorem Block.err_setCoff (b : Block) (v : Half) : (b.setCoff v).err = b.err := rfl
@[simp] theorem Block.phase_setCoff (b : Block) (v : Half) : (b.setCoff v).phase = b.phase := rfl
@[simp] theorem Block.evtLatch_setCoff (b : Block) (v : Half) : (b.setCoff v).evtLatch = b.evtLatch := rfl
@[simp] theorem Block.cap_setCoff (b : Block) (v : Half) : (b.setCoff v).cap = b.cap := rfl

@[simp] theorem Block.params_setCcnt (b : Block) (v : Half) : (b.setCcnt v).params = b.params := rfl
@[simp] theorem Block.fb_setCcnt (b : Block) (v : Half) : (b.setCcnt v).fb = b.fb := rfl
@[simp] theorem Block.len_setCcnt (b : Block) (v : Half) : (b.setCcnt v).len = b.len := rfl
@[simp] theorem Block.rlen_setCcnt (b : Block) (v : Half) : (b.setCcnt v).rlen = b.rlen := rfl
@[simp] theorem Block.csumr_setCcnt (b : Block) (v : Half) : (b.setCcnt v).csumr = b.csumr := rfl
@[simp] theorem Block.coff_setCcnt (b : Block) (v : Half) : (b.setCcnt v).coff = b.coff := rfl
@[simp] theorem Block.ccnt_setCcnt (b : Block) (v : Half) : (b.setCcnt v).ccnt = v := rfl
@[simp] theorem Block.ckind_setCcnt (b : Block) (v : Half) : (b.setCcnt v).ckind = b.ckind := rfl
@[simp] theorem Block.matched_setCcnt (b : Block) (v : Half) : (b.setCcnt v).matched = b.matched := rfl
@[simp] theorem Block.send_setCcnt (b : Block) (v : Half) : (b.setCcnt v).send = b.send := rfl
@[simp] theorem Block.cls_setCcnt (b : Block) (v : Half) : (b.setCcnt v).cls = b.cls := rfl
@[simp] theorem Block.err_setCcnt (b : Block) (v : Half) : (b.setCcnt v).err = b.err := rfl
@[simp] theorem Block.phase_setCcnt (b : Block) (v : Half) : (b.setCcnt v).phase = b.phase := rfl
@[simp] theorem Block.evtLatch_setCcnt (b : Block) (v : Half) : (b.setCcnt v).evtLatch = b.evtLatch := rfl
@[simp] theorem Block.cap_setCcnt (b : Block) (v : Half) : (b.setCcnt v).cap = b.cap := rfl

@[simp] theorem Block.params_setCkind (b : Block) (v : BitVec 2) : (b.setCkind v).params = b.params := rfl
@[simp] theorem Block.fb_setCkind (b : Block) (v : BitVec 2) : (b.setCkind v).fb = b.fb := rfl
@[simp] theorem Block.len_setCkind (b : Block) (v : BitVec 2) : (b.setCkind v).len = b.len := rfl
@[simp] theorem Block.rlen_setCkind (b : Block) (v : BitVec 2) : (b.setCkind v).rlen = b.rlen := rfl
@[simp] theorem Block.csumr_setCkind (b : Block) (v : BitVec 2) : (b.setCkind v).csumr = b.csumr := rfl
@[simp] theorem Block.coff_setCkind (b : Block) (v : BitVec 2) : (b.setCkind v).coff = b.coff := rfl
@[simp] theorem Block.ccnt_setCkind (b : Block) (v : BitVec 2) : (b.setCkind v).ccnt = b.ccnt := rfl
@[simp] theorem Block.ckind_setCkind (b : Block) (v : BitVec 2) : (b.setCkind v).ckind = v := rfl
@[simp] theorem Block.matched_setCkind (b : Block) (v : BitVec 2) : (b.setCkind v).matched = b.matched := rfl
@[simp] theorem Block.send_setCkind (b : Block) (v : BitVec 2) : (b.setCkind v).send = b.send := rfl
@[simp] theorem Block.cls_setCkind (b : Block) (v : BitVec 2) : (b.setCkind v).cls = b.cls := rfl
@[simp] theorem Block.err_setCkind (b : Block) (v : BitVec 2) : (b.setCkind v).err = b.err := rfl
@[simp] theorem Block.phase_setCkind (b : Block) (v : BitVec 2) : (b.setCkind v).phase = b.phase := rfl
@[simp] theorem Block.evtLatch_setCkind (b : Block) (v : BitVec 2) : (b.setCkind v).evtLatch = b.evtLatch := rfl
@[simp] theorem Block.cap_setCkind (b : Block) (v : BitVec 2) : (b.setCkind v).cap = b.cap := rfl

@[simp] theorem Block.params_setPhase (b : Block) (p : Phase) : (b.setPhase p).params = b.params := rfl
@[simp] theorem Block.fb_setPhase (b : Block) (p : Phase) : (b.setPhase p).fb = b.fb := rfl
@[simp] theorem Block.len_setPhase (b : Block) (p : Phase) : (b.setPhase p).len = b.len := rfl
@[simp] theorem Block.rlen_setPhase (b : Block) (p : Phase) : (b.setPhase p).rlen = b.rlen := rfl
@[simp] theorem Block.csumr_setPhase (b : Block) (p : Phase) : (b.setPhase p).csumr = b.csumr := rfl
@[simp] theorem Block.coff_setPhase (b : Block) (p : Phase) : (b.setPhase p).coff = b.coff := rfl
@[simp] theorem Block.ccnt_setPhase (b : Block) (p : Phase) : (b.setPhase p).ccnt = b.ccnt := rfl
@[simp] theorem Block.ckind_setPhase (b : Block) (p : Phase) : (b.setPhase p).ckind = b.ckind := rfl
@[simp] theorem Block.matched_setPhase (b : Block) (p : Phase) : (b.setPhase p).matched = b.matched := rfl
@[simp] theorem Block.send_setPhase (b : Block) (p : Phase) : (b.setPhase p).send = b.send := rfl
@[simp] theorem Block.cls_setPhase (b : Block) (p : Phase) : (b.setPhase p).cls = b.cls := rfl
@[simp] theorem Block.err_setPhase (b : Block) (p : Phase) : (b.setPhase p).err = b.err := rfl
@[simp] theorem Block.phase_setPhase (b : Block) (p : Phase) : (b.setPhase p).phase = p := rfl
@[simp] theorem Block.evtLatch_setPhase (b : Block) (p : Phase) : (b.setPhase p).evtLatch = b.evtLatch := rfl
@[simp] theorem Block.cap_setPhase (b : Block) (p : Phase) : (b.setPhase p).cap = b.cap := rfl

@[simp] theorem Block.params_setLatch (b : Block) (v : Bool) : (b.setLatch v).params = b.params := rfl
@[simp] theorem Block.fb_setLatch (b : Block) (v : Bool) : (b.setLatch v).fb = b.fb := rfl
@[simp] theorem Block.len_setLatch (b : Block) (v : Bool) : (b.setLatch v).len = b.len := rfl
@[simp] theorem Block.rlen_setLatch (b : Block) (v : Bool) : (b.setLatch v).rlen = b.rlen := rfl
@[simp] theorem Block.csumr_setLatch (b : Block) (v : Bool) : (b.setLatch v).csumr = b.csumr := rfl
@[simp] theorem Block.coff_setLatch (b : Block) (v : Bool) : (b.setLatch v).coff = b.coff := rfl
@[simp] theorem Block.ccnt_setLatch (b : Block) (v : Bool) : (b.setLatch v).ccnt = b.ccnt := rfl
@[simp] theorem Block.ckind_setLatch (b : Block) (v : Bool) : (b.setLatch v).ckind = b.ckind := rfl
@[simp] theorem Block.matched_setLatch (b : Block) (v : Bool) : (b.setLatch v).matched = b.matched := rfl
@[simp] theorem Block.send_setLatch (b : Block) (v : Bool) : (b.setLatch v).send = b.send := rfl
@[simp] theorem Block.cls_setLatch (b : Block) (v : Bool) : (b.setLatch v).cls = b.cls := rfl
@[simp] theorem Block.err_setLatch (b : Block) (v : Bool) : (b.setLatch v).err = b.err := rfl
@[simp] theorem Block.phase_setLatch (b : Block) (v : Bool) : (b.setLatch v).phase = b.phase := rfl
@[simp] theorem Block.evtLatch_setLatch (b : Block) (v : Bool) : (b.setLatch v).evtLatch = v := rfl
@[simp] theorem Block.cap_setLatch (b : Block) (v : Bool) : (b.setLatch v).cap = b.cap := rfl

@[simp] theorem Block.params_raiseErr (b : Block) : (b.raiseErr).params = b.params := rfl
@[simp] theorem Block.fb_raiseErr (b : Block) : (b.raiseErr).fb = b.fb := rfl
@[simp] theorem Block.len_raiseErr (b : Block) : (b.raiseErr).len = b.len := rfl
@[simp] theorem Block.rlen_raiseErr (b : Block) : (b.raiseErr).rlen = b.rlen := rfl
@[simp] theorem Block.csumr_raiseErr (b : Block) : (b.raiseErr).csumr = b.csumr := rfl
@[simp] theorem Block.coff_raiseErr (b : Block) : (b.raiseErr).coff = b.coff := rfl
@[simp] theorem Block.ccnt_raiseErr (b : Block) : (b.raiseErr).ccnt = b.ccnt := rfl
@[simp] theorem Block.ckind_raiseErr (b : Block) : (b.raiseErr).ckind = b.ckind := rfl
@[simp] theorem Block.matched_raiseErr (b : Block) : (b.raiseErr).matched = b.matched := rfl
@[simp] theorem Block.send_raiseErr (b : Block) : (b.raiseErr).send = b.send := rfl
@[simp] theorem Block.cls_raiseErr (b : Block) : (b.raiseErr).cls = b.cls := rfl
@[simp] theorem Block.err_raiseErr (b : Block) : (b.raiseErr).err = true := rfl
@[simp] theorem Block.phase_raiseErr (b : Block) : (b.raiseErr).phase = b.phase := rfl
@[simp] theorem Block.evtLatch_raiseErr (b : Block) : (b.raiseErr).evtLatch = b.evtLatch := rfl
@[simp] theorem Block.cap_raiseErr (b : Block) : (b.raiseErr).cap = b.cap := rfl

@[simp] theorem State.block_onBlock (s : State) (f : Block → Block) : (s.onBlock f).block = f s.block := rfl
@[simp] theorem State.host_onBlock (s : State) (f : Block → Block) : (s.onBlock f).host = s.host := rfl
@[simp] theorem State.block_emit (s : State) (e : Event) : (s.emit e).block = s.block := rfl
@[simp] theorem State.inputs_emit (s : State) (e : Event) : (s.emit e).host.inputs = s.host.inputs := rfl
@[simp] theorem State.cycle_emit (s : State) (e : Event) : (s.emit e).host.cycle = s.host.cycle := rfl
@[simp] theorem State.pending_emit (s : State) (e : Event) : (s.emit e).pending = s.pending := rfl
@[simp] theorem State.pending_onBlock (s : State) (f : Block → Block) : (s.onBlock f).pending = s.pending := rfl
@[simp] theorem State.queue_emit (s : State) (e : Event) : (s.emit e).host.queue = s.host.queue := rfl
@[simp] theorem State.ringPtr_emit (s : State) (e : Event) : (s.emit e).host.ringPtr = s.host.ringPtr := rfl
@[simp] theorem State.trace_emit (s : State) (e : Event) : (s.emit e).host.trace = e :: s.host.trace := rfl
@[simp] theorem State.block_popInput (s : State) : s.popInput.block = s.block := rfl
@[simp] theorem State.inputs_popInput (s : State) : s.popInput.host.inputs = s.pending.tail := rfl
/-- The inputs to come: the repeating ones only when the listed ones are used up. -/
theorem State.pending_of_nil {s : State} (h : s.host.inputs = []) : s.pending = s.host.cycle := by
  unfold State.pending; rw [h]
theorem State.pending_of_cons {s : State} {i : Input} {rest : List Input} (h : s.host.inputs = i :: rest) :
    s.pending = i :: rest := by
  unfold State.pending; rw [h]
@[simp] theorem State.cycle_popInput (s : State) : s.popInput.host.cycle = s.host.cycle := rfl
@[simp] theorem State.queue_popInput (s : State) : s.popInput.host.queue = s.host.queue := rfl
@[simp] theorem State.ringPtr_popInput (s : State) : s.popInput.host.ringPtr = s.host.ringPtr := rfl
@[simp] theorem State.trace_popInput (s : State) : s.popInput.host.trace = s.host.trace := rfl
@[simp] theorem HostSide.inputs_consume (h : HostSide) (f : QueuedFrame) : (h.consume f).inputs = h.inputs := rfl
@[simp] theorem HostSide.cycle_consume (h : HostSide) (f : QueuedFrame) : (h.consume f).cycle = h.cycle := rfl
@[simp] theorem HostSide.queue_consume (h : HostSide) (f : QueuedFrame) : (h.consume f).queue = h.queue.tail := rfl
@[simp] theorem HostSide.ringPtr_consume (h : HostSide) (f : QueuedFrame) : (h.consume f).ringPtr = f.next := rfl
@[simp] theorem HostSide.trace_consume (h : HostSide) (f : QueuedFrame) : (h.consume f).trace = h.trace := rfl

@[simp] theorem Phase.busy_idle : Phase.busy .idle = false := rfl
@[simp] theorem Phase.busy_run (u : UpdateStep) : Phase.busy (.run u) = true := rfl

/-- What reset leaves (10_state.md R33), for any instance and contents. -/
@[simp] theorem Block.params_resetWith (p : Params) (m : Memory) : (Block.resetWith p m).params = p := rfl
@[simp] theorem Block.fb_resetWith (p : Params) (m : Memory) : (Block.resetWith p m).fb = m := rfl
@[simp] theorem Block.err_resetWith (p : Params) (m : Memory) : (Block.resetWith p m).err = false := rfl
@[simp] theorem Block.phase_resetWith (p : Params) (m : Memory) : (Block.resetWith p m).phase = .idle := rfl

end Sys2Proof.Machine
end

