-- ==== Sys2Proof/Laws/Memory.lean ====
section
/-! SUPPORT. The laws of the frame buffer: a read after a write, sequences of bytes, the canonical form. -/

namespace Sys2Proof.Machine

@[simp] theorem Memory.read_nil (a : Nat) : Memory.read [] a = Memory.unwritten := rfl

theorem Memory.read_insert (m : Memory) (a : Nat) (v : Byte) (x : Nat) :
    (m.insert a v).read x = if x = a then v else m.read x := by
  induction m with
  | nil => simp [Memory.insert, Memory.read, eq_comm]
  | cons c rest ih =>
    obtain ⟨k, w⟩ := c
    simp only [Memory.insert]
    split
    · simp only [Memory.read, eq_comm (a := a)]
    · split
      · subst_vars
        simp only [Memory.read, eq_comm (a := x)]
        split <;> rfl
      · simp only [Memory.read, ih]
        split
        · subst_vars; simp_all [eq_comm]
        · rfl

theorem Memory.read_erase (m : Memory) (a x : Nat) :
    (m.erase a).read x = if x = a then Memory.unwritten else m.read x := by
  induction m with
  | nil => simp [Memory.erase]
  | cons c rest ih =>
    obtain ⟨k, w⟩ := c
    simp only [Memory.erase] at ih ⊢
    by_cases hk : k = a
    · subst hk
      simp only [List.filter_cons, bne_self_eq_false, Bool.false_eq_true, if_false, ih, Memory.read]
      split
      · rfl
      · rw [if_neg (by omega)]
    · simp only [List.filter_cons, bne_iff_ne, ne_eq, hk, not_false_eq_true, if_true, Memory.read, ih]
      by_cases hx : k = x
      · rw [if_pos hx, if_neg (by omega), if_pos hx]
      · rw [if_neg hx, if_neg hx]

/-- A read after a write. -/
theorem Memory.read_write (m : Memory) (a : Nat) (v : Byte) (x : Nat) :
    (m.write a v).read x = if x = a then v else m.read x := by
  unfold Memory.write
  split
  · next h => rw [Memory.read_erase, h]
  · exact Memory.read_insert m a v x

/-- A read after a sequence was written. -/
theorem Memory.read_writeBytes (m : Memory) (a : Nat) (bytes : List Byte) (x : Nat) :
    (m.writeBytes a bytes).read x =
      if a ≤ x ∧ x < a + bytes.length then bytes.getD (x - a) 0 else m.read x := by
  induction bytes generalizing m a with
  | nil =>
    simp only [Memory.writeBytes, List.length_nil]
    rw [if_neg (by omega)]
  | cons v rest ih =>
    simp only [Memory.writeBytes, ih, Memory.read_write, List.length_cons]
    by_cases h1 : a + 1 ≤ x ∧ x < a + 1 + rest.length
    · rw [if_pos h1, if_pos (by omega)]
      obtain ⟨k, rfl⟩ : ∃ k, x = a + 1 + k := ⟨x - (a + 1), by omega⟩
      rw [show a + 1 + k - (a + 1) = k by omega, show a + 1 + k - a = k + 1 by omega]
      simp
    · rw [if_neg h1]
      by_cases h2 : x = a
      · subst h2; rw [if_pos rfl, if_pos (by omega)]; simp
      · rw [if_neg h2, if_neg (by omega)]

/-- The same, with the length of the sequence named. -/
theorem Memory.read_writeBytes_of_length {bytes : List Byte} {n : Nat} (hn : bytes.length = n) (m : Memory)
    (a x : Nat) :
    (m.writeBytes a bytes).read x = if a ≤ x ∧ x < a + n then bytes.getD (x - a) 0 else m.read x := by
  subst hn; exact Memory.read_writeBytes m a bytes x

@[simp] theorem Memory.length_readBytes (m : Memory) (a n : Nat) : (m.readBytes a n).length = n := by
  simp [Memory.readBytes]

theorem Memory.getD_readBytes (m : Memory) (a n i : Nat) (h : i < n) :
    (m.readBytes a n).getD i 0 = m.read (a + i) := by
  simp [Memory.readBytes, List.getD, h]

theorem Memory.getElem?_readBytes (m : Memory) (a n i : Nat) :
    (m.readBytes a n)[i]? = if i < n then some (m.read (a + i)) else none := by
  simp only [Memory.readBytes, List.getElem?_map]
  split
  · next h => rw [List.getElem?_range h]; rfl
  · next h => rw [List.getElem?_eq_none (by rw [List.length_range]; omega)]; rfl

/-- A range is a given sequence when it agrees with it byte by byte. -/
theorem Memory.readBytes_eq_of (m : Memory) (a n : Nat) (bytes : List Byte) (hl : bytes.length = n)
    (h : ∀ k < n, m.read (a + k) = bytes.getD k 0) : m.readBytes a n = bytes := by
  apply List.ext_getElem?
  intro i
  rw [Memory.getElem?_readBytes]
  split
  · next hi => rw [h i hi, List.getD_eq_getElem?_getD, List.getElem?_eq_getElem (hl ▸ hi)]; rfl
  · rw [List.getElem?_eq_none (by omega)]

/-- A range is read in two parts. -/
theorem Memory.readBytes_add (m : Memory) (a n k : Nat) :
    m.readBytes a (n + k) = m.readBytes a n ++ m.readBytes (a + n) k := by
  apply List.ext_getElem?
  intro i
  rw [List.getElem?_append, Memory.length_readBytes]
  simp only [Memory.getElem?_readBytes]
  split_ifs
  all_goals first | rfl | omega | (rw [show a + n + (i - n) = a + i by omega])

/-- A sequence read back. -/
theorem Memory.readBytes_congr (m m' : Memory) (a n : Nat) (h : ∀ x, a ≤ x → x < a + n → m.read x = m'.read x) :
    m.readBytes a n = m'.readBytes a n := by
  simp only [Memory.readBytes]
  apply List.map_congr_left
  intro i hi
  exact h _ (by omega) (by have := List.mem_range.mp hi; omega)

/-! ### The canonical form -/

theorem Memory.risingFrom_mono {lo lo' : Nat} {m : Memory} (hle : lo' ≤ lo) (h : Memory.risingFrom lo m = true) :
    Memory.risingFrom lo' m = true := by
  cases m with
  | nil => rfl
  | cons c rest =>
    simp only [Memory.risingFrom, Bool.and_eq_true, decide_eq_true_eq] at h ⊢
    exact ⟨⟨by omega, h.1.2⟩, h.2⟩

theorem Memory.risingFrom_insert {lo : Nat} {m : Memory} {a : Nat} {v : Byte} (hv : v ≠ Memory.unwritten)
    (hlo : lo ≤ a) (h : Memory.risingFrom lo m = true) : Memory.risingFrom lo (m.insert a v) = true := by
  induction m generalizing lo with
  | nil => simp [Memory.insert, Memory.risingFrom, hv, hlo]
  | cons c rest ih =>
    obtain ⟨k, w⟩ := c
    simp only [Memory.risingFrom, Bool.and_eq_true, decide_eq_true_eq] at h
    simp only [Memory.insert]
    split
    · next hak =>
      simp only [Memory.risingFrom, Bool.and_eq_true, decide_eq_true_eq, bne_iff_ne]
      exact ⟨⟨hlo, hv⟩, ⟨by omega, by simpa using h.1.2⟩, h.2⟩
    · split
      · next hak =>
        subst hak
        simp only [Memory.risingFrom, Bool.and_eq_true, decide_eq_true_eq, bne_iff_ne]
        exact ⟨⟨hlo, hv⟩, h.2⟩
      · simp only [Memory.risingFrom, Bool.and_eq_true, decide_eq_true_eq]
        exact ⟨h.1, ih (by omega) h.2⟩

theorem Memory.risingFrom_erase {lo : Nat} {m : Memory} (a : Nat) (h : Memory.risingFrom lo m = true) :
    Memory.risingFrom lo (m.erase a) = true := by
  induction m generalizing lo with
  | nil => rfl
  | cons c rest ih =>
    obtain ⟨k, w⟩ := c
    simp only [Memory.risingFrom, Bool.and_eq_true, decide_eq_true_eq] at h
    simp only [Memory.erase, List.filter_cons] at ih ⊢
    split
    · simp only [Memory.risingFrom, Bool.and_eq_true, decide_eq_true_eq]
      exact ⟨h.1, ih h.2⟩
    · exact Memory.risingFrom_mono (by omega) (ih h.2)

/-- A write keeps the canonical form. -/
theorem Memory.wf_write {m : Memory} (a : Nat) (v : Byte) (h : m.wf = true) : (m.write a v).wf = true := by
  unfold Memory.write
  split
  · exact Memory.risingFrom_erase a h
  · next hv => exact Memory.risingFrom_insert hv (Nat.zero_le _) h

/-- Writing a sequence keeps the canonical form. -/
theorem Memory.wf_writeBytes {m : Memory} (a : Nat) (bytes : List Byte) (h : m.wf = true) :
    (m.writeBytes a bytes).wf = true := by
  induction bytes generalizing m a with
  | nil => exact h
  | cons v rest ih => exact ih (a + 1) (Memory.wf_write a v h)

theorem Memory.wf_memWrite2 {m : Memory} (a : Nat) (v : Half) (h : m.wf = true) : (m.memWrite2 a v).wf = true :=
  Memory.wf_writeBytes a _ h

theorem Memory.wf_ofBytes (bytes : List Byte) : (Memory.ofBytes bytes).wf = true :=
  Memory.wf_writeBytes 0 bytes rfl

theorem Memory.mem_insert {m : Memory} {a : Nat} {v : Byte} {c : Host.Cell} (h : c ∈ m.insert a v) :
    c = (a, v) ∨ c ∈ m := by
  induction m with
  | nil => simpa [Memory.insert] using h
  | cons d rest ih =>
    obtain ⟨k, w⟩ := d
    simp only [Memory.insert] at h
    split at h
    · simpa using h
    · split at h
      · rcases List.mem_cons.mp h with h | h
        · exact .inl h
        · exact .inr (List.mem_cons_of_mem _ h)
      · rcases List.mem_cons.mp h with h | h
        · exact .inr (h ▸ List.mem_cons_self ..)
        · rcases ih h with h | h
          · exact .inl h
          · exact .inr (List.mem_cons_of_mem _ h)

theorem Memory.below_iff {cap : Nat} {m : Memory} : Memory.below cap m = true ↔ ∀ c ∈ m, c.1 < cap := by
  simp [Memory.below]

/-- A write inside the buffer stays inside it. -/
theorem Memory.below_write {cap : Nat} {m : Memory} {a : Nat} (v : Byte) (ha : a < cap)
    (h : Memory.below cap m = true) : Memory.below cap (m.write a v) = true := by
  rw [Memory.below_iff] at h ⊢
  intro c hc
  unfold Memory.write at hc
  split at hc
  · exact h c (List.mem_of_mem_filter hc)
  · rcases Memory.mem_insert hc with rfl | hc
    · exact ha
    · exact h c hc

theorem Memory.below_writeBytes {cap : Nat} {m : Memory} {a : Nat} (bytes : List Byte) (ha : a + bytes.length ≤ cap)
    (h : Memory.below cap m = true) : Memory.below cap (m.writeBytes a bytes) = true := by
  induction bytes generalizing m a with
  | nil => exact h
  | cons v rest ih =>
    simp only [List.length_cons] at ha
    exact ih (by omega) (Memory.below_write v (by omega) h)

/-- A memory inside the buffer reads as unwritten outside it. -/
theorem Memory.read_outside {cap : Nat} {m : Memory} (h : Memory.below cap m = true) {a : Nat} (ha : cap ≤ a) :
    m.read a = Memory.unwritten := by
  rw [Memory.below_iff] at h
  induction m with
  | nil => rfl
  | cons c rest ih =>
    obtain ⟨k, w⟩ := c
    have hk : k < cap := h (k, w) (by simp)
    simp only [Memory.read]
    rw [if_neg (by omega)]
    exact ih (fun c hc => h c (List.mem_cons_of_mem _ hc))

theorem Memory.read_of_risingFrom {lo : Nat} {m : Memory} (h : Memory.risingFrom lo m = true) {a : Nat}
    (ha : a < lo) : m.read a = Memory.unwritten := by
  induction m generalizing lo with
  | nil => rfl
  | cons c rest ih =>
    obtain ⟨k, w⟩ := c
    simp only [Memory.risingFrom, Bool.and_eq_true, decide_eq_true_eq] at h
    simp only [Memory.read]
    rw [if_neg (by omega)]
    exact ih h.2 (by omega)

theorem Memory.ext_risingFrom {lo : Nat} {m m' : Memory} (h : Memory.risingFrom lo m = true)
    (h' : Memory.risingFrom lo m' = true) (heq : ∀ a, m.read a = m'.read a) : m = m' := by
  induction m generalizing lo m' with
  | nil =>
    cases m' with
    | nil => rfl
    | cons c rest =>
      obtain ⟨k, w⟩ := c
      simp only [Memory.risingFrom, Bool.and_eq_true, bne_iff_ne] at h'
      exact absurd (by simpa [Memory.read] using (heq k).symm) h'.1.2
  | cons c rest ih =>
    obtain ⟨k, w⟩ := c
    cases m' with
    | nil =>
      simp only [Memory.risingFrom, Bool.and_eq_true, bne_iff_ne] at h
      exact absurd (by simpa [Memory.read] using heq k) h.1.2
    | cons c' rest' =>
      obtain ⟨k', w'⟩ := c'
      simp only [Memory.risingFrom, Bool.and_eq_true, bne_iff_ne, decide_eq_true_eq] at h h'
      have hk : k = k' := by
        rcases Nat.lt_trichotomy k k' with hlt | heq' | hgt
        · have := heq k
          simp only [Memory.read, if_true] at this
          rw [if_neg (by omega), Memory.read_of_risingFrom h'.2 (by omega)] at this
          exact absurd this h.1.2
        · exact heq'
        · have := heq k'
          simp only [Memory.read, if_true] at this
          rw [if_neg (by omega), Memory.read_of_risingFrom h.2 (by omega)] at this
          exact absurd this.symm h'.1.2
      subst hk
      have hw : w = w' := by simpa [Memory.read] using heq k
      subst hw
      rw [ih h.2 h'.2]
      intro a
      by_cases hle : k < a
      · have := heq a
        simp only [Memory.read] at this
        rwa [if_neg (by omega), if_neg (by omega)] at this
      · rw [Memory.read_of_risingFrom h.2 (by omega), Memory.read_of_risingFrom h'.2 (by omega)]

/-- Equal memories are equal data: in the canonical form, memories that read alike are one list. -/
theorem Memory.ext_of_wf {m m' : Memory} (h : m.wf = true) (h' : m'.wf = true)
    (heq : ∀ a, m.read a = m'.read a) : m = m' :=
  Memory.ext_risingFrom h h' heq

/-! ### Two-byte values -/

theorem beBytes_value (v : Half) : beValue (beBytes v) = v.toNat := by
  have := v.isLt
  simp only [beValue, beBytes, List.foldl, BitVec.toNat_ofNat]
  omega

theorem Memory.memRead_two (m : Memory) (a : Nat) :
    m.memRead a 2 = (m.read a).toNat * 256 + (m.read (a + 1)).toNat := by
  simp [Memory.memRead, Memory.readBytes, beValue, List.range_succ]

/-- Two bytes that are those of a 16-bit value read as the value. -/
theorem Memory.memRead_of_beBytes {m : Memory} {a : Nat} {v : Half} (h0 : m.read a = (beBytes v).getD 0 0)
    (h1 : m.read (a + 1) = (beBytes v).getD 1 0) : m.memRead a 2 = v.toNat := by
  rw [Memory.memRead_two, h0, h1]
  have := v.isLt
  simp only [beBytes, List.getD_cons_zero, List.getD_cons_succ, BitVec.toNat_ofNat]
  omega

end Sys2Proof.Machine
end

