-- ==== Sys2Proof/Laws/Checksum.lean ====
section
/-! SUPPORT. The arithmetic of the checksum unit: what `fold16` answers (42_checksum.md R147, the three facts), and
how the word sum depends on the bytes. -/

namespace Sys2Proof.Machine

theorem foldLoop_lt : ∀ (passes s : Nat), s ≤ passes → foldLoop passes s < 0x10000 := by
  intro passes
  induction passes with
  | zero => intro s hs; simp only [foldLoop]; omega
  | succ p ih =>
    intro s hs
    simp only [foldLoop]
    split
    · assumption
    · exact ih _ (by omega)

theorem foldLoop_mod (passes s : Nat) : foldLoop passes s % 0xFFFF = s % 0xFFFF := by
  induction passes generalizing s with
  | zero => rfl
  | succ p ih =>
    simp only [foldLoop]
    split
    · rfl
    · rw [ih]; omega

theorem foldLoop_eq_zero (passes s : Nat) : foldLoop passes s = 0 ↔ s = 0 := by
  induction passes generalizing s with
  | zero => rfl
  | succ p ih =>
    simp only [foldLoop]
    split
    · rfl
    · rw [ih]; omega

/-- The loop of `fold16` has ended: the result fits 16 bits (00_scope.md R13). -/
theorem fold16_lt (s : Nat) : fold16 s < 0x10000 := foldLoop_lt s s (Nat.le_refl s)

/-- R147 fact (i): `fold16(t)` is congruent to `t` modulo 0xFFFF. -/
theorem fold16_mod (s : Nat) : fold16 s % 0xFFFF = s % 0xFFFF := foldLoop_mod s s

/-- R147 fact (ii): `fold16(t) = 0` only when `t = 0`. -/
theorem fold16_eq_zero (s : Nat) : fold16 s = 0 ↔ s = 0 := foldLoop_eq_zero s s

theorem fold16_of_lt {s : Nat} (h : s < 0x10000) : fold16 s = s := by
  unfold fold16
  cases s with
  | zero => rfl
  | succ n => simp only [foldLoop]; rw [if_pos h]

/-- R147 fact (iii): `fold16` is 0xFFFF exactly of the positive multiples of 0xFFFF. -/
theorem fold16_eq_ones (s : Nat) : fold16 s = 0xFFFF ↔ 0 < s ∧ s % 0xFFFF = 0 := by
  have h1 := fold16_lt s
  have h2 := fold16_mod s
  have h3 := fold16_eq_zero s
  omega

theorem cksum_lt (bytes : List Byte) (seed : Nat) : cksum bytes seed < 0x10000 := by
  unfold cksum not16; omega

theorem toNat_cksum16 (bytes : List Byte) (seed : Nat) : (cksum16 bytes seed).toNat = cksum bytes seed := by
  rw [cksum16, BitVec.toNat_ofNat, Nat.mod_eq_of_lt (cksum_lt bytes seed)]

/-- When a range verifies: its checksum is 0 exactly when the total is a positive multiple of 0xFFFF (R148, R151). -/
theorem cksum_eq_zero (bytes : List Byte) (seed : Nat) :
    cksum bytes seed = 0 ↔ 0 < seed + wsum bytes ∧ (seed + wsum bytes) % 0xFFFF = 0 := by
  rw [← fold16_eq_ones]
  have := fold16_lt (seed + wsum bytes)
  unfold cksum not16 cksumRaw
  omega

theorem toNat_icmpPatch (c : Half) : (icmpPatch c).toNat = fold16 (c.toNat + 0x0800) := by
  rw [icmpPatch, BitVec.toNat_ofNat, ocadd16, Nat.mod_eq_of_lt (fold16_lt _)]

/-- The patch in closed form (42_checksum.md R150, "spelled out"). -/
theorem toNat_icmpPatch_eq (c : Half) :
    (icmpPatch c).toNat = if c.toNat + 0x0800 < 0x10000 then c.toNat + 0x0800 else c.toNat + 0x0800 - 0xFFFF := by
  rw [toNat_icmpPatch]
  have hc := c.isLt
  split
  · next h => exact fold16_of_lt h
  · next h =>
    have h1 := fold16_lt (c.toNat + 0x0800)
    have h2 := fold16_mod (c.toNat + 0x0800)
    have h3 := fold16_eq_zero (c.toNat + 0x0800)
    omega

@[simp] theorem wsum_nil : wsum [] = 0 := rfl

/-- The word sum of a range that begins with an even number of bytes. -/
theorem wsum_append (s t : List Byte) (h : s.length % 2 = 0) : wsum (s ++ t) = wsum s + wsum t := by
  induction s using wsum.induct with
  | case1 => simp [wsum]
  | case2 x => simp at h
  | case3 x y rest ih =>
    simp only [List.cons_append, wsum]
    rw [ih (by simp only [List.length_cons] at h; omega)]
    omega

/-- Setting one aligned word changes the sum by the difference of the words. -/
theorem wsum_set_pair (s : List Byte) (j : Nat) (x y : Byte) (h : 2 * j + 1 < s.length) :
    wsum ((s.set (2 * j) x).set (2 * j + 1) y) + ((s.getD (2 * j) 0).toNat * 256 + (s.getD (2 * j + 1) 0).toNat)
      = wsum s + (x.toNat * 256 + y.toNat) := by
  induction s using wsum.induct generalizing j with
  | case1 => simp at h
  | case2 z => simp at h
  | case3 u v rest ih =>
    cases j with
    | zero => simp [wsum]; omega
    | succ k =>
      have h' : 2 * k + 1 < rest.length := by simp at h; omega
      have := ih k h'
      rw [show 2 * (k + 1) = 2 * k + 1 + 1 by omega, show 2 * k + 1 + 1 + 1 = (2 * k + 1) + 1 + 1 by omega]
      simp only [List.set_cons_succ, wsum, List.getD_cons_succ] at this ⊢
      omega

/-- The sum of a range of one byte more or less than words: at most 0xFFFF a word (42_checksum.md R141). -/
theorem wsum_le (s : List Byte) : wsum s ≤ (s.length + 1) / 2 * 0xFFFF := by
  induction s using wsum.induct with
  | case1 => simp [wsum]
  | case2 x => simp only [wsum, List.length_singleton]; have := x.isLt; omega
  | case3 x y rest ih =>
    simp only [wsum, List.length_cons]
    have := x.isLt
    have := y.isLt
    omega

/-- A word sum is zero only of zeros. -/
theorem wsum_eq_zero (bytes : List Byte) : wsum bytes = 0 ↔ ∀ x ∈ bytes, x = 0 := by
  have byteZero : ∀ x : Byte, x.toNat = 0 ↔ x = 0 := fun x =>
    ⟨fun h => BitVec.eq_of_toNat_eq (by simpa using h), by rintro rfl; rfl⟩
  induction bytes using wsum.induct with
  | case1 => simp
  | case2 x => simp only [wsum, List.mem_singleton, forall_eq, ← byteZero]; omega
  | case3 x y rest ih =>
    rw [List.forall_mem_cons, List.forall_mem_cons, ← byteZero x, ← byteZero y]
    simp only [wsum]
    refine ⟨fun h => ⟨by omega, by omega, ih.mp (by omega)⟩, fun h => ?_⟩
    have := ih.mpr h.2.2
    omega

/-- Any bound on the passes that is large enough gives the same fold. -/
theorem foldLoop_stable : ∀ p q s, s ≤ p → s ≤ q → foldLoop p s = foldLoop q s := by
  intro p
  induction p with
  | zero =>
    intro q s h1 _
    obtain rfl : s = 0 := by omega
    cases q <;> simp [foldLoop]
  | succ p ih =>
    intro q s h1 h2
    cases q with
    | zero =>
      obtain rfl : s = 0 := by omega
      simp [foldLoop]
    | succ q =>
      simp only [foldLoop]
      split
      · rfl
      · exact ih q _ (by omega) (by omega)

end Sys2Proof.Machine
end

