-- ==== Sys2Proof/Laws/Machine.lean ====
section
/-! SUPPORT. Everything a step can do, said once (`exec_eq`, `step_next`, `performAction_next`, `blockStep_next`),
and the specs of the shared operations: what each byte of the buffer holds after a builder or a delivery, and that
each keeps the memory in its canonical form and inside the buffer. -/

namespace Sys2Proof.Machine

/-! ### What one instruction does -/

/-- The effect of an instruction on the block, when it completes. -/
def effect : Instr → Block → Block
  | .isarp, b => b.setMatch b.isArp
  | .isipme, b => b.setMatch b.isIpMe
  | .isecho, b => b.setMatch b.isEcho
  | .mkarp, b => b.mkarp
  | .mkecho, b => b.mkecho
  | .csum, b => b.csum
  | .step, b => b.answer b.classify
  | .update, b => b.startUpdate
  | .frameArp, b => b.answer .arp
  | .frameEcho, b => b.answer .echo
  | .frameIpOther, b => b.answer .ipOther
  | .frameNotMe, b => b.answer .notMe

/-- Every instruction completes with its effect, `UPDATE` only while IDLE. -/
theorem exec_eq (i : Instr) (s : State) (h : i = .update → s.block.phase = .idle) :
    exec i s = .next (s.onBlock (effect i)) := by
  cases i
  case update => simp only [exec, execUpdate, h rfl]; rfl
  all_goals rfl

/-- `UPDATE` while RUN is refused. -/
theorem exec_update_running (s : State) (u : UpdateStep) (h : s.block.phase = .run u) :
    exec .update s = .refused .hostActionWhileRunning := by
  simp only [exec, execUpdate, h]

/-- The inversion of `exec`: a next state is the instruction's effect on the block. -/
theorem exec_next {i : Instr} {s t : State} (h : exec i s = .next t) :
    t = s.onBlock (effect i) ∧ (i = .update → s.block.phase = .idle) := by
  by_cases hi : i = .update → s.block.phase = .idle
  · rw [exec_eq i s hi] at h
    exact ⟨(Host.Outcome.next.inj h).symm, hi⟩
  · obtain ⟨rfl, hp⟩ := Classical.not_imp.mp hi
    cases hph : s.block.phase with
    | idle => exact absurd hph hp
    | run u => rw [exec_update_running s u hph] at h; cases h

/-- The answer to a frame touches the buffer, `RLEN`, `CLASS` and `SEND` only. -/
theorem answer_frame (b : Block) (c : FrameClass) :
    (b.answer c).params = b.params ∧ (b.answer c).len = b.len ∧ (b.answer c).csumr = b.csumr
      ∧ (b.answer c).coff = b.coff ∧ (b.answer c).ccnt = b.ccnt ∧ (b.answer c).ckind = b.ckind
      ∧ (b.answer c).matched = b.matched ∧ (b.answer c).err = b.err ∧ (b.answer c).phase = b.phase
      ∧ (b.answer c).evtLatch = b.evtLatch := by
  cases c <;> simp [Block.answer, Block.mkarp, Block.mkecho]

/-- Which effects may touch what: the identity never, the event latch never, `LEN` never, `PHASE` only by `UPDATE`, the
error bit only by `CSUM`. -/
theorem effect_frame (i : Instr) (b : Block) :
    (effect i b).params = b.params ∧ (effect i b).len = b.len ∧ (effect i b).evtLatch = b.evtLatch
      ∧ (i ≠ .update → (effect i b).phase = b.phase) ∧ (i ≠ .csum → (effect i b).err = b.err) := by
  cases i
  case csum => simp only [effect, Block.csum]; split <;> simp
  case step => simpa [effect] using
    ⟨(answer_frame b _).1, (answer_frame b _).2.1, (answer_frame b _).2.2.2.2.2.2.2.2.2,
      (answer_frame b _).2.2.2.2.2.2.2.2.1, (answer_frame b _).2.2.2.2.2.2.2.1⟩
  all_goals simp [effect, Block.mkarp, Block.mkecho, Block.startUpdate, Block.answer]

/-! ### What one step does -/

/-- When it is the block's turn, a step is the block's own. -/
theorem step_of_blockTurn {s : State} (h : s.blockTurn = true) : step s = blockStep s.taken := by
  simp only [step, stepBody]
  unfold State.blockTurn at h
  unfold State.taken
  split <;> simp_all

/-- When an action is next, a step performs it. -/
theorem step_of_performs {s : State} {a : Action} (h : s.Performs a) : step s = performAction a s.popInput := by
  simp only [step, stepBody]
  unfold State.Performs at h
  cases hi : s.pending with
  | nil => simp [hi] at h
  | cons x rest =>
    rw [hi] at h
    simp only [List.head?_cons, Option.some.injEq] at h
    rcases h with rfl | ⟨rfl, hp⟩
    · rfl
    · simp [hp]

@[simp] theorem State.block_taken (s : State) : s.taken.block = s.block := by
  unfold State.taken; split <;> rfl

@[simp] theorem State.queue_taken (s : State) : s.taken.host.queue = s.host.queue := by
  unfold State.taken; split <;> rfl

@[simp] theorem State.trace_taken (s : State) : s.taken.host.trace = s.host.trace := by
  unfold State.taken; split <;> rfl

@[simp] theorem State.ringPtr_taken (s : State) : s.taken.host.ringPtr = s.host.ringPtr := by
  unfold State.taken; split <;> rfl

/-- The inversion of `step`, with whose turn it was. -/
theorem step_next_cases {s t : State} (h : step s = .next t) :
    (s.blockTurn = true ∧ blockStep s.taken = .next t) ∨
    (∃ a, s.Performs a ∧ performAction a s.popInput = .next t) := by
  cases hb : s.blockTurn with
  | true => exact .inl ⟨rfl, by rw [← step_of_blockTurn hb]; exact h⟩
  | false =>
    have hp : ∃ a, s.Performs a := by
      unfold State.blockTurn at hb
      split at hb
      · cases hb
      · cases hb
      · next a rest hi => exact ⟨a, .inl (by rw [hi]; rfl)⟩
      · next a rest hi =>
        refine ⟨a, .inr ⟨by rw [hi]; rfl, ?_⟩⟩
        cases hph : s.block.phase with
        | idle => rfl
        | run u => rw [hph] at hb; cases hb
    obtain ⟨a, ha⟩ := hp
    exact .inr ⟨a, ha, by rw [← step_of_performs ha]; exact h⟩

/-- The inversion of `performAction`. -/
theorem performAction_next {a : Action} {s t : State} (h : performAction a s = .next t) :
    (s.block.phase.busy = true → a.allowedWhileRunning = true) ∧
    match a with
    | .load data => t = loadAction s data
    | .unload n => t = unloadAction s n
    | .peek x => t = peekAction s x
    | .poke x v => t = pokeAction s x v
    | .rd reg => t = rdAction s reg
    | .wr reg v =>
      (reg ≠ 0x00 ∧ t = wrAction s reg v) ∨
      (reg = 0x00 ∧ ((∃ i, decodeCommand (commandCode v) = some i ∧ exec i s = .next t) ∨
        (decodeCommand (commandCode v) = none ∧ t = reservedCommand s)))
    | .evt =>
      (s.block.phase = .idle ∧ t = s.onBlock Block.startUpdate) ∨
      (s.block.phase.busy = true ∧ t = s.onBlock Block.evtWhileBusy)
    | .reset contents => t = resetAction s contents
    | .arrive f => t = arriveAction s f := by
  simp only [performAction] at h
  split at h
  · cases h
  · next hb =>
    refine ⟨fun h1 => by simpa [h1] using hb, ?_⟩
    cases a with
    | load data => exact (Host.Outcome.next.inj h).symm
    | unload n => exact (Host.Outcome.next.inj h).symm
    | peek x => exact (Host.Outcome.next.inj h).symm
    | poke x v => exact (Host.Outcome.next.inj h).symm
    | rd reg => exact (Host.Outcome.next.inj h).symm
    | wr reg v =>
      simp only at h ⊢
      split at h
      · next hr =>
        refine .inr ⟨hr, ?_⟩
        simp only [commandAction] at h
        split at h
        · next i hi => exact .inl ⟨i, hi, h⟩
        · next hi => exact .inr ⟨hi, (Host.Outcome.next.inj h).symm⟩
      · next hr => exact .inl ⟨hr, (Host.Outcome.next.inj h).symm⟩
    | evt =>
      simp only [evtAction] at h ⊢
      split at h
      · next hp => exact .inl ⟨hp, (exec_next h).1⟩
      · next u hp => exact .inr ⟨by rw [hp]; rfl, (Host.Outcome.next.inj h).symm⟩
    | reset contents => exact (Host.Outcome.next.inj h).symm
    | arrive f => exact (Host.Outcome.next.inj h).symm

/-- How many bytes `rx` delivers (44_host_access.md R181). -/
theorem length_rxBytes (cap : Nat) (f : QueuedFrame) :
    (rxBytes cap f).length = min (f.bytes.length - 4) (cap - 1) := by
  rw [rxBytes, List.length_take]
  omega

/-- A frame of declared length 4 has nothing to deliver. -/
theorem rxBytes_of_length_four {cap : Nat} {f : QueuedFrame} (h : f.bytes.length = 4) : rxBytes cap f = [] :=
  List.eq_nil_of_length_eq_zero (by rw [length_rxBytes]; omega)

/-- What numbers that fit the buffer are. -/
theorem numbersOk_iff (p : Params) : p.numbersOk = true ↔
    1 ≤ p.numbers.ipMinLen ∧ 1 ≤ p.numbers.arpReplyLen.toNat ∧ p.numbers.arpReplyLen.toNat ≤ p.bufCap.bytes - 1 := by
  simp only [Params.numbersOk, Bool.and_eq_true, decide_eq_true_eq, and_assoc]

/-- The inversion of the `rx` step: nothing queued, a frame whose CRC-valid bit is clear, or a delivery. -/
theorem rxStep_next {s t : State} (h : rxStep s = .next t) :
    ∃ data hs, t = (({ s with host := hs } : State).onBlock (fun b => b.afterRx data)).emit (.rx data.length)
      ∧ data.length ≤ s.block.cap - 1 ∧ hs.inputs = s.host.inputs ∧ hs.cycle = s.host.cycle ∧ hs.trace = s.host.trace
      ∧ ((s.host.queue = [] ∧ data = [] ∧ hs = s.host) ∨
         (∃ f rest, s.host.queue = f :: rest ∧ hs = s.host.consume f ∧
            ((f.crcValid = false ∧ data = []) ∨
             (f.crcValid = true ∧ 4 ≤ f.bytes.length ∧ data = rxBytes s.block.cap f)))) := by
  simp only [rxStep] at h
  split at h
  · next hq => exact ⟨[], s.host, (Host.Outcome.next.inj h).symm, Nat.zero_le _, rfl, rfl, rfl, .inl ⟨hq, rfl, rfl⟩⟩
  · next f rest hq =>
    split at h
    · next hc =>
      exact ⟨[], s.host.consume f, (Host.Outcome.next.inj h).symm, Nat.zero_le _, rfl, rfl, rfl,
        .inr ⟨f, rest, hq, rfl, .inl ⟨by simpa using hc, rfl⟩⟩⟩
    · next hc =>
      split at h
      · cases h
      · next hl =>
        refine ⟨rxBytes s.block.cap f, s.host.consume f, (Host.Outcome.next.inj h).symm, ?_, rfl, rfl, rfl,
          .inr ⟨f, rest, hq, rfl, .inr ⟨by simpa using hc, by omega, rfl⟩⟩⟩
        simp only [rxBytes, List.length_take]
        omega

/-- The inversion of the block's own step. -/
theorem blockStep_next {s t : State} (h : blockStep s = .next t) :
    (s.block.phase = .idle ∧ t = s) ∨
    (s.block.phase = .run .rx ∧ rxStep s = .next t) ∨
    (∃ data, s.block.phase = .run (.load data) ∧ t = loadStep s data) ∨
    (s.block.phase = .run .step ∧
      t = s.onBlock (fun b => (effect b.fetchFrame b).afterStep)) ∨
    (s.block.phase = .run .tx ∧ t = txStep s) := by
  simp only [blockStep] at h
  split at h
  · next hp => exact .inl ⟨hp, (Host.Outcome.next.inj h).symm⟩
  · next hp => exact .inr (.inl ⟨hp, h⟩)
  · next data hp => exact .inr (.inr (.inl ⟨data, hp, (Host.Outcome.next.inj h).symm⟩))
  · next hp =>
    refine .inr (.inr (.inr (.inl ⟨hp, ?_⟩)))
    simp only [frameStep] at h
    split at h
    · next u hu =>
      obtain ⟨rfl, -⟩ := exec_next hu
      exact (Host.Outcome.next.inj h).symm
    · cases h
    · cases h
  · next hp => exact .inr (.inr (.inr (.inr ⟨hp, (Host.Outcome.next.inj h).symm⟩)))

/-! ### The builders, byte by byte -/

theorem macBytes_length (m : Mac) : (macBytes m).length = 6 := rfl
theorem ipBytes_length (a : Ip) : (ipBytes a).length = 4 := rfl
theorem beBytes_length (v : Half) : (beBytes v).length = 2 := rfl

/-- What every byte of the buffer holds after `MKARP` (41_reply.md R120). -/
theorem read_mkarpBuffer (p : Params) (old : Memory) (x : Nat) :
    (mkarpBuffer p old).read x =
      if x < 6 then old.read (x + 6)
      else if x < 12 then (macBytes p.mymac).getD (x - 6) 0
      else if x < 20 then old.read x
      else if x = 20 then 0x00
      else if x = 21 then 0x02
      else if x < 28 then (macBytes p.mymac).getD (x - 22) 0
      else if x < 32 then (ipBytes p.myip).getD (x - 28) 0
      else if x < 42 then old.read (x - 10)
      else old.read x := by
  unfold mkarpBuffer replyEthernet
  rw [Memory.read_writeBytes_of_length (ipBytes_length _), Memory.read_writeBytes_of_length (macBytes_length _),
    Memory.read_writeBytes_of_length (Memory.length_readBytes ..),
    Memory.read_writeBytes_of_length (Memory.length_readBytes ..), Memory.read_writeBytes_of_length (n := 2) rfl,
    Memory.read_writeBytes_of_length (macBytes_length _), Memory.read_writeBytes_of_length (Memory.length_readBytes ..)]
  have hr : x < 6 ∨ (6 ≤ x ∧ x < 12) ∨ (12 ≤ x ∧ x < 20) ∨ x = 20 ∨ x = 21 ∨ (22 ≤ x ∧ x < 28) ∨ (28 ≤ x ∧ x < 32)
      ∨ (32 ≤ x ∧ x < 38) ∨ (38 ≤ x ∧ x < 42) ∨ 42 ≤ x := by omega
  rcases hr with h | h | h | h | h | h | h | h | h | h
  case inl | inr.inr.inr.inr.inr.inr.inr.inl | inr.inr.inr.inr.inr.inr.inr.inr.inl =>
    simp (disch := omega) only [if_pos, if_neg, Memory.getD_readBytes]
    congr 1; omega
  case inr.inr.inr.inl | inr.inr.inr.inr.inl => subst h; rfl
  all_goals simp (disch := omega) only [if_pos, if_neg]

/-- What every byte of the buffer holds after steps 1 and 2 of `MKECHO` (41_reply.md R125). -/
theorem read_mkechoFields (p : Params) (old : Memory) (x : Nat) :
    (mkechoFields p old).read x =
      if x < 6 then old.read (x + 6)
      else if x < 12 then (macBytes p.mymac).getD (x - 6) 0
      else if x < 20 then old.read x
      else if x = 20 then 0x40
      else if x = 21 then 0x00
      else if x = 22 then p.numbers.replyTtl
      else if x = 23 then old.read 23
      else if x < 26 then 0x00
      else if x < 30 then (ipBytes p.myip).getD (x - 26) 0
      else if x < 34 then old.read (x - 4)
      else old.read x := by
  unfold mkechoFields replyEthernet
  rw [Memory.read_writeBytes_of_length (n := 1) rfl, Memory.read_writeBytes_of_length (n := 2) rfl,
    Memory.read_writeBytes_of_length (n := 2) rfl, Memory.read_writeBytes_of_length (ipBytes_length _),
    Memory.read_writeBytes_of_length (Memory.length_readBytes ..), Memory.read_writeBytes_of_length (macBytes_length _),
    Memory.read_writeBytes_of_length (Memory.length_readBytes ..)]
  have hr : x < 6 ∨ (6 ≤ x ∧ x < 12) ∨ (12 ≤ x ∧ x < 20) ∨ x = 20 ∨ x = 21 ∨ x = 22 ∨ x = 23 ∨ x = 24 ∨ x = 25
      ∨ (26 ≤ x ∧ x < 30) ∨ (30 ≤ x ∧ x < 34) ∨ 34 ≤ x := by omega
  rcases hr with h | h | h | h | h | h | h | h | h | h | h | h
  case inl | inr.inr.inr.inr.inr.inr.inr.inr.inr.inr.inl =>
    simp (disch := omega) only [if_pos, if_neg, Memory.getD_readBytes]
    congr 1; omega
  case inr.inr.inr.inl | inr.inr.inr.inr.inl | inr.inr.inr.inr.inr.inl | inr.inr.inr.inr.inr.inr.inl |
      inr.inr.inr.inr.inr.inr.inr.inl | inr.inr.inr.inr.inr.inr.inr.inr.inl => subst h; rfl
  all_goals simp (disch := omega) only [if_pos, if_neg]

/-- The header checksum `MKECHO` stores (R125 step 3, R126). -/
def mkechoHeaderSum (p : Params) (old : Memory) : Half := cksum16 ((mkechoFields p old).readBytes 14 20) 0

/-- The ICMP checksum field of the request (R125 step 5). -/
def icmpField (old : Memory) : Half := BitVec.ofNat 16 (old.memRead 36 2)

theorem toNat_icmpField (m : Memory) : (icmpField m).toNat = m.memRead 36 2 := by
  rw [icmpField, BitVec.toNat_ofNat, Memory.memRead_two]
  have := (m.read 36).isLt
  have := (m.read (36 + 1)).isLt
  omega

/-- What every byte of the buffer holds after `MKECHO` (R125). -/
theorem read_mkechoBuffer (p : Params) (old : Memory) (x : Nat) :
    (mkechoBuffer p old).read x =
      if x = 24 ∨ x = 25 then (beBytes (mkechoHeaderSum p old)).getD (x - 24) 0
      else if x = 34 then 0x00
      else if x = 36 ∨ x = 37 then (beBytes (icmpPatch (icmpField old))).getD (x - 36) 0
      else (mkechoFields p old).read x := by
  have hdef : mkechoBuffer p old = (((mkechoFields p old).memWrite2 24 (mkechoHeaderSum p old)).writeBytes 34
    [0x00]).memWrite2 36 (icmpPatch (icmpField old)) := rfl
  rw [hdef, Memory.memWrite2, Memory.memWrite2, Memory.read_writeBytes_of_length (beBytes_length _),
    Memory.read_writeBytes_of_length (n := 1) rfl, Memory.read_writeBytes_of_length (beBytes_length _)]
  by_cases h34 : x = 34
  · subst h34; simp
  · split_ifs <;> first | omega | rfl

/-- A builder changes the buffer and `RLEN`, and nothing else (R131). -/
theorem Block.mkarp_eq (b : Block) :
    b.mkarp = { b with fb := mkarpBuffer b.params b.fb, rlen := b.params.numbers.arpReplyLen } := by
  simp only [Block.mkarp, Block.setRlen, Block.setFb]

theorem Block.mkecho_eq (b : Block) : b.mkecho = { b with fb := mkechoBuffer b.params b.fb, rlen := b.len } := by
  simp only [Block.mkecho, Block.setRlen, Block.setFb]

/-- What every byte of the buffer holds after a delivery (44_host_access.md R180). -/
theorem read_deliver (b : Block) (data : List Byte) (x : Nat) :
    (b.deliver data).fb.read x = if x < data.length then data.getD x 0 else b.fb.read x := by
  simp [Block.deliver, Memory.read_writeBytes]

/-! ### The canonical form is kept -/

theorem wf_replyEthernet {p : Params} {old m : Memory} (h : m.wf = true) : (replyEthernet p old m).wf = true :=
  Memory.wf_writeBytes _ _ (Memory.wf_writeBytes _ _ h)

theorem wf_mkarpBuffer {p : Params} {old : Memory} (h : old.wf = true) : (mkarpBuffer p old).wf = true := by
  unfold mkarpBuffer
  iterate 5 apply Memory.wf_writeBytes
  exact wf_replyEthernet h

theorem wf_mkechoBuffer {p : Params} {old : Memory} (h : old.wf = true) : (mkechoBuffer p old).wf = true := by
  unfold mkechoBuffer mkechoFields
  iterate 8 apply Memory.wf_writeBytes
  exact wf_replyEthernet h

theorem below_replyEthernet {cap : Nat} {p : Params} {old m : Memory} (hc : 43 ≤ cap) (h : m.below cap = true) :
    (replyEthernet p old m).below cap = true :=
  Memory.below_writeBytes _ (by rw [macBytes_length]; omega)
    (Memory.below_writeBytes _ (by rw [Memory.length_readBytes]; omega) h)

theorem below_mkarpBuffer {cap : Nat} {p : Params} {old : Memory} (hc : 43 ≤ cap) (h : old.below cap = true) :
    (mkarpBuffer p old).below cap = true := by
  unfold mkarpBuffer
  apply Memory.below_writeBytes _ (by rw [ipBytes_length]; omega)
  apply Memory.below_writeBytes _ (by rw [macBytes_length]; omega)
  apply Memory.below_writeBytes _ (by rw [Memory.length_readBytes]; omega)
  apply Memory.below_writeBytes _ (by rw [Memory.length_readBytes]; omega)
  apply Memory.below_writeBytes _ (by simp only [List.length_cons, List.length_nil]; omega)
  exact below_replyEthernet hc h

theorem below_mkechoBuffer {cap : Nat} {p : Params} {old : Memory} (hc : 43 ≤ cap) (h : old.below cap = true) :
    (mkechoBuffer p old).below cap = true := by
  unfold mkechoBuffer mkechoFields Memory.memWrite2
  apply Memory.below_writeBytes _ (by rw [beBytes_length]; omega)
  apply Memory.below_writeBytes _ (by simp only [List.length_cons, List.length_nil]; omega)
  apply Memory.below_writeBytes _ (by rw [beBytes_length]; omega)
  apply Memory.below_writeBytes _ (by simp only [List.length_cons, List.length_nil]; omega)
  apply Memory.below_writeBytes _ (by simp only [List.length_cons, List.length_nil]; omega)
  apply Memory.below_writeBytes _ (by simp only [List.length_cons, List.length_nil]; omega)
  apply Memory.below_writeBytes _ (by rw [ipBytes_length]; omega)
  apply Memory.below_writeBytes _ (by rw [Memory.length_readBytes]; omega)
  exact below_replyEthernet hc h

end Sys2Proof.Machine
end

