-- ==== Sys2Proof/Laws/Classify.lean ====
section
/-! SUPPORT. The classification tests as Booleans and as propositions, the class each gives, the effects spelled out,
and the small facts of a run that the statements about several steps start from. -/

namespace Sys2Proof.Machine

theorem Block.isMyIpAt_eq (b : Block) (a : Nat) : b.isMyIpAt a = decide (b.MyIpAt a) := by
  rw [Bool.eq_iff_iff]
  simp [Block.isMyIpAt, Block.MyIpAt, and_assoc]

theorem Block.isArp_eq (b : Block) : b.isArp = decide b.ArpForMe := by
  unfold Block.isArp
  rw [Block.isMyIpAt_eq, Bool.eq_iff_iff]
  simp only [Block.ArpForMe, and_assoc, Bool.and_eq_true, decide_eq_true_eq, beq_iff_eq]

theorem Block.isIpMe_eq (b : Block) : b.isIpMe = decide b.IpForMe := by
  unfold Block.isIpMe
  rw [Block.isMyIpAt_eq, Bool.eq_iff_iff]
  simp only [Block.IpForMe, and_assoc, Bool.and_eq_true, decide_eq_true_eq, beq_iff_eq]

theorem Block.isEcho_eq (b : Block) : b.isEcho = decide b.EchoRequest := by
  rw [Bool.eq_iff_iff]
  simp [Block.isEcho, Block.EchoRequest]

/-- The range test of the decoder is that of the classifiers. -/
theorem equalsIpAt_eq (b : Block) (a : Nat) : equalsIpAt b.params.myip b.byte a = decide (b.MyIpAt a) :=
  Block.isMyIpAt_eq b a

/-! The class of a frame, arm by arm of 43_poll.md R160. -/

theorem classify_arp {b : Block} (h : b.ArpForMe) : b.classify = .arp := by
  unfold Block.classify
  rw [Block.isArp_eq, decide_eq_true h]; rfl

theorem classify_notMe {b : Block} (h : ¬ b.ArpForMe) (h2 : ¬ b.IpForMe) : b.classify = .notMe := by
  unfold Block.classify
  rw [Block.isArp_eq, Block.isIpMe_eq, decide_eq_false h, decide_eq_false h2]; rfl

theorem classify_echo {b : Block} (h : ¬ b.ArpForMe) (h2 : b.IpForMe) (h3 : b.EchoRequest) : b.classify = .echo := by
  unfold Block.classify
  rw [Block.isArp_eq, Block.isIpMe_eq, Block.isEcho_eq, decide_eq_false h, decide_eq_true h2, decide_eq_true h3]; rfl

theorem classify_ipOther {b : Block} (h : ¬ b.ArpForMe) (h2 : b.IpForMe) (h3 : ¬ b.EchoRequest) :
    b.classify = .ipOther := by
  unfold Block.classify
  rw [Block.isArp_eq, Block.isIpMe_eq, Block.isEcho_eq, decide_eq_false h, decide_eq_true h2, decide_eq_false h3]; rfl

theorem effect_step (b : Block) : effect .step b = b.answer b.classify := rfl

/-- `CSUM` with legal operands, and with illegal ones. -/
theorem Block.csum_legal {b : Block} (h : b.csumLegal = true) :
    b.csum = b.setCsumr (cksum16 b.csumRange (csumSeed b.params.numbers.plenAdj b.ckind b.ccnt.toNat)) := if_pos h

theorem Block.csum_illegal {b : Block} (h : ¬ b.csumLegal = true) : b.csum = b.raiseErr := if_neg h

/-- `LOAD` of a frame that fits, and of one that does not. -/
theorem Block.load_fits {b : Block} {data : List Byte} (h : data.length < b.params.bufCap.bytes) :
    b.load data = b.deliver data := if_pos h

theorem Block.load_too_long {b : Block} {data : List Byte} (h : ¬ data.length < b.params.bufCap.bytes) :
    b.load data = b.raiseErr := if_neg h

/-- A length within the buffer is held by a 16-bit register. -/
theorem toNat_length {n : Nat} {p : Params} (h : n ≤ p.bufCap.bytes) : (BitVec.ofNat 16 n).toNat = n := by
  have := p.bufCap.atMost1500
  rw [BitVec.toNat_ofNat]
  omega

/-- The command code of a byte written to `CMD`. -/
@[simp] theorem commandCode_setWidth (code : Byte) : commandCode (code.setWidth 16) = code := by
  simp [commandCode]

/-- With no input left and none that repeats it is the block's turn, and nothing is used up. -/
theorem turn_of_no_input {s : State} (h : s.pending = []) : s.blockTurn = true ∧ s.taken = s := by
  unfold State.blockTurn State.taken
  rw [h]
  exact ⟨rfl, rfl⟩

/-- A run goes on from the state its first step gives. -/
theorem run_step {k : Nat} {s t : State} (h : step s = .next t) :
    Sys2Proof.core.run (k + 1) s = Sys2Proof.core.run k t := by
  have h' : Sys2Proof.core.step s = .next t := h
  exact (Host.Core.run.eq_2 Sys2Proof.core s k).trans (by rw [h'])

end Sys2Proof.Machine
end

