-- ==== Sys2Proof/Laws/PerInstr.lean ====
section
/-! SUPPORT. Facts about an instruction as syntax, one lemma per constructor. -/

namespace Sys2Proof.Laws.EncodingForm

/-- The word an instruction is encoded as is of its own kind and well-formed for every instance: a legal command byte
for a `CMD` row, a 42-byte frame for a `FRAME` row. -/
def Statement (i : Instr) : Prop :=
  ∀ (p : Params) (fill : Nat → Byte), (encodeWith p fill i).wellFormed p = true
    ∧ ((encodeCommand i).isSome = i.isCommand)

theorem frame_wellFormed (p : Params) (bytes : List Byte) (h : bytes.length = 42) :
    (Fetched.frame 42 bytes).wellFormed p = true := by
  have := p.bufCap.atLeast43
  simp [Fetched.wellFormed, h]
  omega

theorem row_length (r : FrameRow) (ip : Ip) (fill : Nat → Byte) : (r.frameBytes ip fill).length = 42 := by
  simp [FrameRow.frameBytes]

theorem isarp : Statement .isarp := fun _ _ => ⟨rfl, rfl⟩
theorem isipme : Statement .isipme := fun _ _ => ⟨rfl, rfl⟩
theorem isecho : Statement .isecho := fun _ _ => ⟨rfl, rfl⟩
theorem mkarp : Statement .mkarp := fun _ _ => ⟨rfl, rfl⟩
theorem mkecho : Statement .mkecho := fun _ _ => ⟨rfl, rfl⟩
theorem csum : Statement .csum := fun _ _ => ⟨rfl, rfl⟩
theorem step : Statement .step := fun _ _ => ⟨rfl, rfl⟩
theorem update : Statement .update := fun _ _ => ⟨rfl, rfl⟩
theorem frameArp : Statement .frameArp := fun p _ => ⟨frame_wellFormed p _ (row_length _ _ _), rfl⟩
theorem frameEcho : Statement .frameEcho := fun p _ => ⟨frame_wellFormed p _ (row_length _ _ _), rfl⟩
theorem frameIpOther : Statement .frameIpOther := fun p _ => ⟨frame_wellFormed p _ (row_length _ _ _), rfl⟩
theorem frameNotMe : Statement .frameNotMe := fun p _ => ⟨frame_wellFormed p _ (row_length _ _ _), rfl⟩

end Sys2Proof.Laws.EncodingForm
end

