-- ==== Sys2Proof/Tests/Slice0.lean ====
section
/-! SUPPORT. Own tests: expected results from 95_test_vectors.md and the encodings of 30_encoding.md, or worked by hand
from the rule named; and for every statement with hypotheses a concrete state that meets them. -/

namespace Sys2Proof.Tests

set_option Elab.async false

open Sys2Proof Sys2Proof.Machine

/-! ### Small states -/

/-- `ARPREQ` (95 section 2). -/
def arpReq : List Byte :=
    [0xFF, 0xFF, 0xFF, 0xFF, 0xFF, 0xFF, 0x00, 0x11, 0x22, 0x33, 0x44, 0x55, 0x08, 0x06, 0x00, 0x01,
    0x08, 0x00, 0x06, 0x04, 0x00, 0x01, 0x00, 0x11, 0x22, 0x33, 0x44, 0x55, 0xC0, 0xA8, 0x00, 0x0A,
    0x00, 0x00, 0x00, 0x00, 0x00, 0x00, 0xC0, 0xA8, 0x00, 0xC8]

/-- `ARPREP` (95 section 2). -/
def arpRep : List Byte :=
    [0x00, 0x11, 0x22, 0x33, 0x44, 0x55, 0x02, 0x00, 0x00, 0x00, 0x00, 0xC8, 0x08, 0x06, 0x00, 0x01,
    0x08, 0x00, 0x06, 0x04, 0x00, 0x02, 0x02, 0x00, 0x00, 0x00, 0x00, 0xC8, 0xC0, 0xA8, 0x00, 0xC8,
    0x00, 0x11, 0x22, 0x33, 0x44, 0x55, 0xC0, 0xA8, 0x00, 0x0A]

/-- `ECHOREQ` (95 section 2). -/
def echoReq : List Byte :=
    [0x02, 0x00, 0x00, 0x00, 0x00, 0xC8, 0x00, 0x11, 0x22, 0x33, 0x44, 0x55, 0x08, 0x00, 0x45, 0x00,
    0x00, 0x24, 0xBE, 0xEF, 0x00, 0x00, 0x80, 0x01, 0xF9, 0xC6, 0xC0, 0xA8, 0x00, 0x0A, 0xC0, 0xA8,
    0x00, 0xC8, 0x08, 0x00, 0x54, 0x35, 0x12, 0x34, 0x00, 0x01, 0x61, 0x62, 0x63, 0x64, 0x65, 0x66,
    0x67, 0x68]

/-- `ECHOREP` (95 section 2). -/
def echoRep : List Byte :=
    [0x00, 0x11, 0x22, 0x33, 0x44, 0x55, 0x02, 0x00, 0x00, 0x00, 0x00, 0xC8, 0x08, 0x00, 0x45, 0x00,
    0x00, 0x24, 0xBE, 0xEF, 0x40, 0x00, 0x40, 0x01, 0xF9, 0xC6, 0xC0, 0xA8, 0x00, 0xC8, 0xC0, 0xA8,
    0x00, 0x0A, 0x00, 0x00, 0x5C, 0x35, 0x12, 0x34, 0x00, 0x01, 0x61, 0x62, 0x63, 0x64, 0x65, 0x66,
    0x67, 0x68]

/-- `UDPFRM` (95 section 2). -/
def udpFrm : List Byte :=
    [0x02, 0x00, 0x00, 0x00, 0x00, 0xC8, 0x00, 0x11, 0x22, 0x33, 0x44, 0x55, 0x08, 0x00, 0x45, 0x00,
    0x00, 0x1D, 0x00, 0x03, 0x00, 0x00, 0x40, 0x11, 0xF8, 0xAA, 0xC0, 0xA8, 0x00, 0x0A, 0xC0, 0xA8,
    0x00, 0xC8, 0x04, 0x00, 0x00, 0x07, 0x00, 0x09, 0x00, 0x00, 0x58]

/-- The state after reset and a `LOAD` of the bytes. -/
def loaded (bytes : List Byte) : State := { State.reset with block := State.reset.block.deliver bytes }

/-- The same with another `LEN`. -/
def loadedLen (bytes : List Byte) (len : Half) : State :=
  { State.reset with block := (State.reset.block.deliver bytes).setLen len }

/-- A state with one input to come. -/
def next (i : Input) (s : State) : State := { s with host := { s.host with inputs := [i] } }

/-- A state in which inputs come again and again. -/
def forever (cycle : List Input) (s : State) : State := { s with host := { s.host with cycle := cycle } }

/-- A state of an instance with another value of a number of R6. -/
def numbered (n : Numbers) (s : State) : State :=
  { s with block := { s.block with params := { s.block.params with numbers := n } } }

/-- A state in which `UPDATE` runs, at the given step, with frames queued. -/
def running (u : UpdateStep) (queue : List QueuedFrame) (s : State) : State :=
  { block := s.block.setPhase (.run u), host := { s.host with queue := queue } }

/-- A state of an instance that latches events. -/
def latching (s : State) : State :=
  { s with block := { s.block with params := { s.block.params with evtWhileBusy := .latched } } }

/-- A state whose event latch is set. -/
def latched (s : State) : State := { s with block := s.block.setLatch true }

/-- A state with `ERR` set. -/
def erred (s : State) : State := { s with block := s.block.raiseErr }

/-- The `CSUM` operands. -/
def withRange (off n : Half) (kind : BitVec 2) (s : State) : State :=
  { s with block := ((s.block.setCoff off).setCcnt n).setCkind kind }

/-- A queued frame: the bytes and four CRC bytes. -/
def queued (bytes : List Byte) : QueuedFrame := { next := 0x100, crcValid := true, bytes := bytes ++ [1, 2, 3, 4] }

/-- The same with its CRC-valid bit clear. -/
def badCrc (bytes : List Byte) : QueuedFrame := { queued bytes with crcValid := false }

/-- A CRC-valid queued frame of declared length exactly 4. -/
def onlyCrc : QueuedFrame := queued []

/-- The outcome is a next state of which `p` holds. -/
def ok (o : Host.Outcome State Fault Refusal) (p : State → Bool) : Bool :=
  match o with
  | .next t => p t
  | .fault _ => false
  | .refused _ => false

/-- The first bytes of the buffer. -/
def firstBytes (n : Nat) (s : State) : List Byte := s.block.fb.readBytes 0 n

/-! ### Well-formedness: an ill-formed term for each check, refused -/

theorem test_wf_command_zero : (Fetched.command 0x00).wellFormed Params.common = false := by decide
theorem test_wf_command_nine : (Fetched.command 0x09).wellFormed Params.common = false := by decide
theorem test_wf_command_one_eight : (Fetched.command 0x01).wellFormed Params.common = true
    ∧ (Fetched.command 0x08).wellFormed Params.common = true := by decide
theorem test_wf_frame_empty : (Fetched.frame 0 arpReq).wellFormed Params.common = false := by decide
theorem test_wf_frame_too_long : (Fetched.frame 64 arpReq).wellFormed Params.common = false := by decide
theorem test_wf_frame_short_buffer : (Fetched.frame 14 (arpReq.take 41)).wellFormed Params.common = false := by decide
theorem test_wf_frame_long_buffer :
    (Fetched.frame 14 (arpReq ++ arpReq)).wellFormed Params.common = false := by decide
theorem test_wf_frame_good : (Fetched.frame 42 arpReq).wellFormed Params.common = true := by decide
theorem test_wf_load : (Action.load (arpReq ++ arpReq.take 22)).wellFormed Params.common = false
    ∧ (Action.load (arpReq ++ arpReq.take 21)).wellFormed Params.common = true := by decide
theorem test_wf_unload : (Action.unload 65).wellFormed Params.common = false
    ∧ (Action.unload 64).wellFormed Params.common = true := by decide
theorem test_wf_peek : (Action.peek 64).wellFormed Params.common = false
    ∧ (Action.peek 63).wellFormed Params.common = true := by decide
theorem test_wf_poke : (Action.poke 64 0xAA).wellFormed Params.common = false
    ∧ (Action.poke 63 0xAA).wellFormed Params.common = true := by decide
theorem test_wf_wr_reserved_command : (Action.wr 0x00 0x09).wellFormed Params.common = false := by decide
theorem test_wf_wr_read_only : (Action.wr 0x03 0x01).wellFormed Params.common = false
    ∧ (Action.wr 0x02 0x01).wellFormed Params.common = true := by decide
theorem test_wf_arrive : (Action.arrive { next := 0, crcValid := true, bytes := [1, 2, 3] }).wellFormed Params.common = false
    ∧ (Action.arrive { next := 0, crcValid := false, bytes := [] }).wellFormed Params.common = true := by decide

theorem test_wf_numbers : Params.common.numbersOk = true
    ∧ { Params.common with numbers := { Numbers.r6 with ipMinLen := 0 } }.numbersOk = false
    ∧ { Params.common with numbers := { Numbers.r6 with arpReplyLen := 0 } }.numbersOk = false
    ∧ { Params.common with numbers := { Numbers.r6 with arpReplyLen := 64 } }.numbersOk = false := by decide

/-! ### Decoding: words written out from R84 and from 95 section 2, bit 0 the lowest bit of the first byte -/

theorem test_decode_isarp : decodeTableWord 8 0b00000001 = some .isarp := by decide
theorem test_decode_isipme : decodeTableWord 8 0b00000010 = some .isipme := by decide
theorem test_decode_isecho : decodeTableWord 8 0b00000011 = some .isecho := by decide
theorem test_decode_mkarp : decodeTableWord 8 0b00000100 = some .mkarp := by decide
theorem test_decode_mkecho : decodeTableWord 8 0b00000101 = some .mkecho := by decide
theorem test_decode_csum : decodeTableWord 8 0b00000110 = some .csum := by decide
theorem test_decode_step : decodeTableWord 8 0b00000111 = some .step := by decide
theorem test_decode_update : decodeTableWord 8 0b00001000 = some .update := by decide
theorem test_decode_reserved : decodeTableWord 8 0b00000000 = none ∧ decodeTableWord 8 0b00001001 = none
    ∧ decodeTableWord 8 0b11111111 = none := by decide

/-- `ARPREQ` as a word. -/
theorem test_decode_frameArp : decodeTableWord 336
    0xc800a8c00000000000000a00a8c055443322110001000406000801000608554433221100ffffffffffff
    = some .frameArp := by decide +kernel

/-- The first 42 bytes of `ECHOREQ` as a word. -/
theorem test_decode_frameEcho : decodeTableWord 336
    0x100341235540008c800a8c00a00a8c0c6f901800000efbe240000450008554433221100c80000000002
    = some .frameEcho := by decide +kernel

/-- The first 42 bytes of `UDPFRM` as a word. -/
theorem test_decode_frameIpOther : decodeTableWord 336
    0x90007000004c800a8c00a00a8c0aaf81140000003001d0000450008554433221100c80000000002
    = some .frameIpOther := by decide +kernel

/-- An `ECHOREQ` whose offset 14 is 46, an IP header with options (95 V1 row 12). -/
theorem test_decode_frameNotMe : decodeTableWord 336
    0x100341235540008c800a8c00a00a8c0c6f901800000efbe240000460008554433221100c80000000002
    = some .frameNotMe := by decide +kernel

/-- For an instance the frame is not addressed to it is class `NOT_ME` (95 V1 rows 2 and 3). -/
theorem test_decode_other_address :
    decode Params.common (.frame 42 (arpReq.set 41 0xC9)) = some .frameNotMe
      ∧ decode Params.common (.frame 42 (arpReq.set 38 0xC1)) = some .frameNotMe
      ∧ decode Params.common (.frame 42 arpReq) = some .frameArp
      ∧ decode Params.common (.frame 13 arpReq) = some .frameNotMe := by decide +kernel

/-! ### A word placed is the first instruction run after reset -/

theorem test_placed_step_runs : ok (step (State.reset.withFetchWord 8 0x07)) (fun t => t.block.cls == .notMe
    && t.block.phase == .idle) = true := by decide +kernel

theorem test_placed_frame_runs : ok (step (State.reset.withFetchWord 336
    0xc800a8c00000000000000a00a8c055443322110001000406000801000608554433221100ffffffffffff))
    (fun t => firstBytes 42 t == arpRep && t.block.phase == .run .tx) = true := by decide +kernel

/-! ### Instructions (95 V1, V4 to V7) -/

/-- V1 rows 1 and 6. -/
theorem test_isarp_request : ok (exec .isarp (loaded arpReq)) (fun t => t.block.statusByte == 0x01) = true
    ∧ ok (exec .isarp (loaded (arpReq.set 21 0x02))) (fun t => t.block.statusByte == 0x01) = true := by decide +kernel

/-- V1 row 7: below the gate of 14. -/
theorem test_isarp_gate : ok (exec .isarp (loadedLen arpReq 13)) (fun t => t.block.statusByte == 0x00) = true
    ∧ ok (exec .isarp (loadedLen arpReq 14)) (fun t => t.block.statusByte == 0x01) = true := by decide +kernel

/-- 90 C4: the model run with `ARP_MIN_LEN` 42, which V1 row 7's neighbour at length 41 then does not pass; the frame
table has the same gate. -/
theorem test_isarp_stricter_gate :
    let strict := numbered { Numbers.r6 with arpMinLen := 42 }
    ok (exec .isarp (strict (loadedLen arpReq 41))) (fun t => !t.block.matched) = true
      ∧ ok (exec .isarp (strict (loadedLen arpReq 42))) (fun t => t.block.matched) = true
      ∧ (strict (loadedLen arpReq 41)).block.fetchFrame = .frameNotMe
      ∧ (loadedLen arpReq 41).block.fetchFrame = .frameArp := by decide +kernel

/-- V1 rows 10 and 8. -/
theorem test_isipme_gate : ok (exec .isipme (loadedLen echoReq 34)) (fun t => t.block.statusByte == 0x01) = true
    ∧ ok (exec .isipme (loadedLen echoReq 33)) (fun t => t.block.statusByte == 0x00) = true := by decide +kernel

/-- V1 rows 12 and 17. -/
theorem test_isipme_pattern : ok (exec .isipme (loaded (echoReq.set 14 0x46))) (fun t => !t.block.matched) = true
    ∧ ok (exec .isipme (loaded (echoReq.set 30 0xC1))) (fun t => !t.block.matched) = true := by decide +kernel

/-- V1 row 8: no gate. -/
theorem test_isecho_no_gate : ok (exec .isecho (loadedLen echoReq 33)) (fun t => t.block.matched) = true := by
  decide +kernel

/-- V1 rows 18 and 20. -/
theorem test_isecho_pattern : ok (exec .isecho (loaded (echoReq.set 23 0x11))) (fun t => !t.block.matched) = true
    ∧ ok (exec .isecho (loaded (echoReq.set 34 0x00))) (fun t => !t.block.matched) = true := by decide +kernel

/-- V5 row 1. -/
theorem test_mkarp_request : ok (exec .mkarp (loaded arpReq)) (fun t => firstBytes 42 t == arpRep
    && t.block.rlen == 42 && t.block.statusByte == 0x00) = true := by decide +kernel

/-- V5 row 4: the moves on arbitrary content. -/
theorem test_mkarp_unconditional : ok (exec .mkarp (loaded echoReq)) (fun t => firstBytes 50 t ==
    [0x00, 0x11, 0x22, 0x33, 0x44, 0x55, 0x02, 0x00, 0x00, 0x00, 0x00, 0xC8, 0x08, 0x00, 0x45, 0x00,
    0x00, 0x24, 0xBE, 0xEF, 0x00, 0x02, 0x02, 0x00, 0x00, 0x00, 0x00, 0xC8, 0xC0, 0xA8, 0x00, 0xC8,
    0x80, 0x01, 0xF9, 0xC6, 0xC0, 0xA8, 0x00, 0x0A, 0xC0, 0xA8, 0x61, 0x62, 0x63, 0x64, 0x65, 0x66,
    0x67, 0x68]
    && t.block.rlen == 42 && t.block.len == 50) = true := by decide +kernel

/-- V6 row 1. -/
theorem test_mkecho_request : ok (exec .mkecho (loaded echoReq)) (fun t => firstBytes 50 t == echoRep
    && t.block.rlen == 50) = true := by decide +kernel

/-- V6 row 3: flags overwritten, TTL raised, the patch's last value without a carry. -/
theorem test_mkecho_corner : ok (exec .mkecho (loaded
    [0x02, 0x00, 0x00, 0x00, 0x00, 0xC8, 0x00, 0x11, 0x22, 0x33, 0x44, 0x55, 0x08, 0x00, 0x45, 0x10,
    0x00, 0x1C, 0x12, 0x34, 0x3F, 0xFF, 0x01, 0x01, 0xE5, 0x7B, 0xC0, 0xA8, 0x00, 0x0A, 0xC0, 0xA8,
    0x00, 0xC8, 0x08, 0x00, 0xF7, 0xFF, 0x00, 0x00, 0x00, 0x00]))
    (fun t => firstBytes 42 t ==
    [0x00, 0x11, 0x22, 0x33, 0x44, 0x55, 0x02, 0x00, 0x00, 0x00, 0x00, 0xC8, 0x08, 0x00, 0x45, 0x10,
    0x00, 0x1C, 0x12, 0x34, 0x40, 0x00, 0x40, 0x01, 0xA6, 0x7A, 0xC0, 0xA8, 0x00, 0xC8, 0xC0, 0xA8,
    0x00, 0x0A, 0x00, 0x00, 0xFF, 0xFF, 0x00, 0x00, 0x00, 0x00]
    && t.block.rlen == 42) = true := by decide +kernel

/-- V4 rows 3, 4 and 9: an odd range, an odd offset, a seed. -/
theorem test_csum_results : ok (exec .csum (withRange 34 15 0 (loaded echoReq))) (fun t => t.block.csumr == 0x0068) = true
    ∧ ok (exec .csum (withRange 13 4 0 (loaded echoReq))) (fun t => t.block.csumr == 0xFFBA) = true
    ∧ ok (exec .csum (withRange 26 17 1 (loaded udpFrm))) (fun t => t.block.csumr == 0x21B2) = true := by decide +kernel

/-- V4 rows 7, 10, 11, 12 and 13. -/
theorem test_csum_errors : ok (exec .csum (withRange 64 0 0 (loaded echoReq))) (fun t => t.block.csumr == 0xFFFF) = true
    ∧ ok (exec .csum (withRange 60 5 0 (loaded echoReq))) (fun t => t.block.err && t.block.csumr == 0) = true
    ∧ ok (exec .csum (withRange 0xFFFF 0xFFFF 0 (loaded echoReq))) (fun t => t.block.err) = true
    ∧ ok (exec .csum (withRange 26 7 1 (loaded echoReq))) (fun t => t.block.err) = true
    ∧ ok (exec .csum (withRange 14 20 3 (loaded echoReq))) (fun t => t.block.err) = true := by decide +kernel

/-- V7 rows 1 and 2. -/
theorem test_step_answers : ok (exec .step (loaded arpReq)) (fun t => t.block.statusByte == 0x06
      && firstBytes 42 t == arpRep) = true
    ∧ ok (exec .step (loaded echoReq)) (fun t => t.block.statusByte == 0x0A && firstBytes 50 t == echoRep) = true := by
  decide +kernel

/-- V7 rows 3 and 7. -/
theorem test_step_drops : ok (exec .step (loaded udpFrm)) (fun t => t.block.statusByte == 0x0C && t.block.rlen == 0
      && firstBytes 43 t == udpFrm) = true
    ∧ ok (exec .step (loaded echoRep)) (fun t => t.block.statusByte == 0x00 && t.block.rlen == 0) = true := by
  decide +kernel

/-- R25, R165: `STATUS` shows bit 5 while `UPDATE` runs. -/
theorem test_update_busy : ok (exec .update State.reset) (fun t => t.block.statusByte == 0x20
    && t.block.phase == .run .rx) = true := by decide +kernel

/-- R240: none starts inside a running one. -/
theorem test_update_not_reentrant : exec .update (running .step [] State.reset) = .refused .hostActionWhileRunning := rfl

theorem test_frameArp : ok (exec .frameArp (loaded arpReq)) (fun t => t.block.statusByte == 0x06
    && firstBytes 42 t == arpRep) = true := by decide +kernel

theorem test_frameEcho : ok (exec .frameEcho (loaded echoReq)) (fun t => t.block.statusByte == 0x0A
    && firstBytes 50 t == echoRep) = true := by decide +kernel

theorem test_frameIpOther : ok (exec .frameIpOther (loaded udpFrm)) (fun t => t.block.statusByte == 0x0C
    && firstBytes 43 t == udpFrm) = true := by decide +kernel

theorem test_frameNotMe : ok (exec .frameNotMe (loaded arpRep)) (fun t => t.block.statusByte == 0x00
    && firstBytes 42 t == arpRep) = true := by decide +kernel

/-! ### The checksum unit (95 V2 rows 3, 5, 7, 8, 11, 12, 16; V3) -/

theorem test_checksum_rows : cksum [0xFF] 0 = 0x00FF ∧ cksum [0x12, 0x34, 0x56] 0 = 0x97CB
    ∧ cksum [0xFF, 0xFF, 0xFF, 0xFF] 0 = 0x0000 ∧ cksum [0xFF, 0xFF, 0x00, 0x01] 0 = 0xFFFE
    ∧ cksum [0x00, 0x01, 0xF2, 0x03, 0xF4, 0xF5, 0xF6, 0xF7] 0 = 0x220D
    ∧ cksum [0xFF, 0xFF, 0xFF, 0xFF, 0x00, 0x01] 0 = 0xFFFE ∧ cksum [] 0 = 0xFFFF := by decide +kernel

/-- V2, "With a seed". -/
theorem test_checksum_seeds : cksum [0xC0, 0xA8, 0x00, 0x0A, 0xC0, 0xA8, 0x00, 0xC8, 0x04, 0x00, 0x00, 0x35, 0x00, 0x0A,
      0x00, 0x00, 0x68, 0x69] (csumSeed 8 1 18) = 0x1119
    ∧ csumSeed 8 1 18 = 27 ∧ csumSeed 8 2 18 = 16 ∧ csumSeed 8 0 18 = 0 := by decide +kernel

theorem test_patch_rows : icmpPatch 0x0000 = 0x0800 ∧ icmpPatch 0x5435 = 0x5C35 ∧ icmpPatch 0xF7FF = 0xFFFF
    ∧ icmpPatch 0xF800 = 0x0001 ∧ icmpPatch 0xF8FF = 0x0100 ∧ icmpPatch 0xFFFE = 0x07FF
    ∧ icmpPatch 0xFFFF = 0x0800 := by decide +kernel

/-! ### Host access (95 V8, one step each) -/

/-- V8 rows 1 to 4. -/
theorem test_registers_after_reset : State.reset.block.readReg 0x08 = 64 ∧ State.reset.block.readReg 0x10 = 0x02
    ∧ State.reset.block.readReg 0x15 = 0xC8 ∧ State.reset.block.readReg 0x18 = 0xC0
    ∧ State.reset.block.readReg 0x1B = 0xC8 ∧ State.reset.block.readReg 0x01 = 0 ∧ State.reset.block.readReg 0x00 = 0
    ∧ State.reset.block.readReg 0x09 = 0 ∧ State.reset.block.readReg 0x16 = 0 := by decide +kernel

/-- V8 rows 5 and 6. -/
theorem test_writes_clamp : ok (step (next (.inTurn (.wr 0x02 2000)) State.reset)) (fun t => t.block.len == 63
      && !t.block.err) = true
    ∧ ok (step (next (.inTurn (.wr 0x07 0xFE)) State.reset)) (fun t => t.block.readReg 0x07 == 2) = true := by
  decide +kernel

/-- V8 rows 7, 9 and 10. -/
theorem test_writes_refused_by_err : ok (step (next (.inTurn (.wr 0x03 1)) State.reset)) (fun t =>
      t.block.statusByte == 0x10 && t.block.rlen == 0) = true
    ∧ ok (step (next (.inTurn (.wr 0x09 0)) State.reset)) (fun t => t.block.statusByte == 0x10) = true
    ∧ ok (step (next (.inTurn (.wr 0x00 0x09)) State.reset)) (fun t => t.block.statusByte == 0x10) = true := by
  decide +kernel

/-- V8 rows 12 and 14. -/
theorem test_load_too_long : ok (step (next (.inTurn (.load (arpReq ++ arpReq.take 22))) State.reset)) (fun t =>
      t.block.statusByte == 0x10 && t.block.len == 0 && t.block.fb == []) = true
    ∧ ok (step (next (.inTurn (.unload 65)) State.reset)) (fun t => t.block.statusByte == 0x10) = true := by
  decide +kernel

/-- V8 rows 15 and 16. -/
theorem test_poke_edge : ok (step (next (.inTurn (.poke 63 0xAA)) State.reset)) (fun t => t.block.byte 63 == 0xAA) = true
    ∧ ok (step (next (.inTurn (.peek 64)) State.reset)) (fun t => t.block.statusByte == 0x10
      && t.host.trace == [.peeked 64 0]) = true := by decide +kernel

/-- Writing what an unlisted offset reads as removes the entry: equal buffers are equal data. -/
theorem test_memory_canonical : (Memory.write [] 5 0x00) = [] ∧ (Memory.write [(5, 0x01)] 5 0x00) = []
    ∧ Memory.write (Memory.write [] 7 0x01) 5 0x02 = [(5, 0x02), (7, 0x01)] := by decide

/-! ### Witnesses: for every statement with hypotheses, a state and operands that meet them -/

/-- The instance of `State.reset` has R6's numbers: the hypothesis of the clauses with R6's values in
`IsarpSetsMatchOnly`, `IsipmeSetsMatchOnly`, `MkarpBuildsTheReply`, `MkechoBuildsTheReply`, `MkechoHeaderVerifies`,
`MkarpTwice` and `CsumResultOrErr`; and the boundary of each gate. -/
theorem witness_numbers_r6 : State.reset.block.params.numbers = Numbers.r6
    ∧ (loadedLen arpReq 14).block.ArpForMe ∧ ¬ (loadedLen arpReq 13).block.ArpForMe
    ∧ (loadedLen echoReq 34).block.IpForMe ∧ ¬ (loadedLen echoReq 33).block.IpForMe := by decide +kernel

theorem witness_ClassifiersReadTheirFootprintOnly :
    (loaded arpReq).block.params.myip = (loaded (arpReq.set 0 0x77)).block.params.myip
      ∧ (loaded arpReq).block.params.numbers = (loaded (arpReq.set 0 0x77)).block.params.numbers
      ∧ exec .isarp (loaded arpReq) = .next ((loaded arpReq).onBlock (effect .isarp))
      ∧ exec .isarp (loaded (arpReq.set 0 0x77)) = .next ((loaded (arpReq.set 0 0x77)).onBlock (effect .isarp))
      ∧ (loaded arpReq).block.len = (loaded (arpReq.set 0 0x77)).block.len
      ∧ (∀ a ∈ [12, 13, 38, 39, 40, 41], (loaded arpReq).block.byte a = (loaded (arpReq.set 0 0x77)).block.byte a) :=
  ⟨rfl, rfl, rfl, rfl, by decide +kernel, by decide +kernel⟩

theorem witness_ClassifiersReadTheirFootprintOnly_ip :
    exec .isipme (loaded echoReq) = .next ((loaded echoReq).onBlock (effect .isipme))
      ∧ exec .isecho (loaded echoReq) = .next ((loaded echoReq).onBlock (effect .isecho))
      ∧ (loaded echoReq).block.len = (loaded (echoReq.set 49 0x77)).block.len
      ∧ (∀ a ∈ [12, 13, 14, 30, 31, 32, 33], (loaded echoReq).block.byte a = (loaded (echoReq.set 49 0x77)).block.byte a)
      ∧ (∀ a ∈ [23, 34], (loaded echoReq).block.byte a = (loaded (echoReq.set 49 0x77)).block.byte a) :=
  ⟨rfl, rfl, by decide +kernel, by decide +kernel, by decide +kernel⟩

theorem witness_ClassifiersAndCsumAreIdempotent :
    Instr.isarp ∈ [Instr.isarp, .isipme, .isecho, .csum]
      ∧ exec .isarp (loaded arpReq) = .next ((loaded arpReq).onBlock (effect .isarp))
      ∧ exec .csum (withRange 14 20 3 (loaded echoReq)) =
          .next ((withRange 14 20 3 (loaded echoReq)).onBlock (effect .csum)) := ⟨by decide, rfl, rfl⟩

/-- Lengths 4 and 16; the message of `ECHOREQ` verifies. -/
theorem witness_MkechoKeepsIcmpValidity : 4 ≤ 4 ∧ 4 ≤ 16 ∧ (loaded echoReq).block.byte 34 = 0x08
    ∧ cksum ((loaded echoReq).block.fb.readBytes 34 16) 0 = 0x0000 := by decide +kernel

/-- The patch equals the recompute: `ECHOREQ`. -/
theorem witness_PatchAgainstRecompute_equal : (loaded echoReq).block.byte 34 = 0x08
    ∧ cksum ((loaded echoReq).block.fb.readBytes 34 16) 0 = 0x0000
    ∧ (loaded echoReq).block.fb.memRead 36 2 ≠ 0xF7FF := by decide +kernel

/-- The odd case, 95 P4 case b. -/
def p4b : List Byte :=
    [0x02, 0x00, 0x00, 0x00, 0x00, 0xC8, 0x00, 0x11, 0x22, 0x33, 0x44, 0x55, 0x08, 0x00, 0x45, 0x00,
    0x00, 0x1C, 0x00, 0x05, 0x00, 0x00, 0x40, 0x01, 0xF8, 0xB9, 0xC0, 0xA8, 0x00, 0x0A, 0xC0, 0xA8,
    0x00, 0xC8, 0x08, 0x00, 0xF7, 0xFF, 0xFF, 0xFF, 0x00, 0x00]

theorem witness_PatchAgainstRecompute_odd : (loaded p4b).block.byte 34 = 0x08
    ∧ cksum ((loaded p4b).block.fb.readBytes 34 8) 0 = 0x0000 ∧ (loaded p4b).block.fb.memRead 36 2 = 0xF7FF
    ∧ (∃ x ∈ (((mkechoBuffer Params.common (loaded p4b).block.fb).readBytes 34 8).set 2 0).set 3 0, x ≠ 0) := by
  decide +kernel

/-- 95 P4 case c, the boundary: the field is 0xF7FF, everything else of the reply is zero. -/
def p4c : List Byte :=
    [0x02, 0x00, 0x00, 0x00, 0x00, 0xC8, 0x00, 0x11, 0x22, 0x33, 0x44, 0x55, 0x08, 0x00, 0x45, 0x00,
    0x00, 0x1C, 0x00, 0x05, 0x00, 0x00, 0x40, 0x01, 0xF8, 0xB9, 0xC0, 0xA8, 0x00, 0x0A, 0xC0, 0xA8,
    0x00, 0xC8, 0x08, 0x00, 0xF7, 0xFF, 0x00, 0x00, 0x00, 0x00]

theorem witness_PatchAgainstRecompute_boundary : (loaded p4c).block.byte 34 = 0x08
    ∧ cksum ((loaded p4c).block.fb.readBytes 34 8) 0 = 0x0000 ∧ (loaded p4c).block.fb.memRead 36 2 = 0xF7FF
    ∧ (∀ x ∈ (((mkechoBuffer Params.common (loaded p4c).block.fb).readBytes 34 8).set 2 0).set 3 0, x = 0)
    ∧ (mkechoBuffer Params.common (loaded p4c).block.fb).memRead 36 2 = 0xFFFF := by
  decide +kernel

theorem witness_RepliesReclassified : (loaded arpReq).block.ArpForMe ∧ (loaded echoReq).block.IpForMe := by
  decide +kernel

theorem witness_FoldIsTheLoop : 0xFFFF < 0x10000 ∧ 0x10000 ≤ 0x10000 := by decide

/-- The header of 95 V2 row 12, field at bytes 10 and 11; and the last word of a range. -/
theorem witness_InsertedChecksumVerifies :
    let s0 : List Byte := [0x45, 0x00, 0x00, 0x73, 0x00, 0x00, 0x40, 0x00, 0x40, 0x11, 0x00, 0x00]
    2 * 5 + 1 < s0.length ∧ s0.getD (2 * 5) 0 = 0 ∧ s0.getD (2 * 5 + 1) 0 = 0 := by decide

theorem witness_TheTwoZeros : cksumRaw [0x00] 0 = 0x0000 ∧ cksumRaw [0xFF, 0xFF] 0 = 0xFFFF := by decide +kernel

/-- Each error case by itself, at its boundary. -/
theorem witness_CsumResultOrErr_bad : 64 + 1 > (loaded echoReq).block.params.bufCap.bytes
    ∧ (withRange 14 20 3 (loaded echoReq)).block.ckind = 3
    ∧ (withRange 26 7 1 (loaded echoReq)).block.ckind = 1 ∧ (withRange 26 7 1 (loaded echoReq)).block.ccnt.toNat < 8
    ∧ (withRange 26 7 2 (loaded echoReq)).block.ckind = 2 := by decide +kernel

/-- Legal operands of each kind, at the boundaries: the whole buffer, the empty range at its end, eight bytes. -/
theorem witness_CsumResultOrErr_good : (withRange 0 64 0 (loaded echoReq)).block.csumLegal = true
    ∧ (withRange 64 0 0 (loaded echoReq)).block.csumLegal = true
    ∧ (withRange 56 8 1 (loaded echoReq)).block.csumLegal = true
    ∧ (withRange 26 8 2 (loaded echoReq)).block.csumLegal = true := by decide +kernel

/-- The four arms, three of them at the length gates. -/
theorem witness_StepDispatches : (loadedLen arpReq 14).block.ArpForMe
    ∧ (¬ (loadedLen arpReq 13).block.ArpForMe ∧ ¬ (loadedLen arpReq 13).block.IpForMe)
    ∧ (¬ (loadedLen echoReq 34).block.ArpForMe ∧ (loadedLen echoReq 34).block.IpForMe
      ∧ (loadedLen echoReq 34).block.EchoRequest)
    ∧ (¬ (loaded udpFrm).block.ArpForMe ∧ (loaded udpFrm).block.IpForMe ∧ ¬ (loaded udpFrm).block.EchoRequest) := by
  decide +kernel

theorem witness_InstructionsFrame :
    exec .mkecho (loaded echoReq) = .next ((loaded echoReq).onBlock (effect .mkecho))
      ∧ exec .update State.reset = .next (State.reset.onBlock (effect .update))
      ∧ Instr.mkecho ≠ .update ∧ Instr.mkecho ≠ .csum := ⟨rfl, rfl, by decide, by decide⟩

theorem witness_DecodeEncodeAgree : ¬ ((fun _ : Nat => (0xFF : Byte)) 23 = 0x01 ∧ (fun _ : Nat => (0xFF : Byte)) 34 = 0x08)
    ∧ decodeCommand 0x08 = some .update ∧ encodeCommand .isarp = some 0x01 ∧ Instr.update.isCommand = true
    ∧ Params.common.numbers.arpMinLen ≤ 42 ∧ Params.common.numbers.ipMinLen ≤ 42 := by decide

/-- In turn and at once. -/
theorem witness_StepRunsTheDecodedCommand :
    (next (.inTurn (.wr 0x00 0x0001)) State.reset).Performs (.wr 0x00 ((0x01 : Byte).setWidth 16))
      ∧ (next (.atOnce (.wr 0x00 0x0008)) State.reset).Performs (.wr 0x00 ((0x08 : Byte).setWidth 16))
      ∧ State.reset.block.phase = .idle ∧ decodeCommand 0x01 = some .isarp ∧ decodeCommand 0x08 = some .update := by
  decide +kernel

theorem witness_StepRunsTheDecodedFrame : (running .step [] (loaded arpReq)).blockTurn = true
    ∧ (running .step [] (loaded arpReq)).block.phase = .run .step
    ∧ (next .tick (running .step [] (loaded arpReq))).blockTurn = true := by decide +kernel

theorem witness_PlacedCommandIsRunNext : 0x08 < 256 ∧ decodeTableWord 8 0x08 = some .update := by decide

theorem witness_PlacedFrameIsRunNext : 8 < 336 ∧ 8 < 9 ∧ State.reset.block.params.numbers.arpMinLen ≤ 42
    ∧ State.reset.block.params.numbers.ipMinLen ≤ 42 := by decide

theorem witness_ReservedCodeRaisesErr :
    (next (.inTurn (.wr 0x00 0x0000)) State.reset).Performs (.wr 0x00 ((0x00 : Byte).setWidth 16))
      ∧ (next (.inTurn (.wr 0x00 0x0009)) State.reset).Performs (.wr 0x00 ((0x09 : Byte).setWidth 16))
      ∧ (next (.inTurn (.wr 0x00 0x00FF)) State.reset).Performs (.wr 0x00 ((0xFF : Byte).setWidth 16))
      ∧ State.reset.block.phase = .idle ∧ 0x09 ≤ (0x09 : Byte).toNat ∧ 0x09 ≤ (0xFF : Byte).toNat := by decide +kernel

theorem witness_IdleBlockDoesNothing : State.reset.block.phase = .idle ∧ State.reset.blockTurn = true
    ∧ (next .tick State.reset).blockTurn = true := by decide +kernel

theorem witness_UpdateStartsTheLoop : State.reset.block.phase = .idle
    ∧ (running .tx [] State.reset).block.phase = .run .tx := by decide +kernel

theorem witness_RxOfAnEmptyQueueEndsTheLoop : (running .rx [] State.reset).blockTurn = true
    ∧ (running .rx [] State.reset).block.phase = .run .rx ∧ (running .rx [] State.reset).host.queue = []
    ∧ (running .rx [] State.reset).block.evtLatch = false := by decide +kernel

theorem witness_RxOfABadFrameEndsTheLoop :
    let s := running .rx [badCrc arpReq, queued echoReq] State.reset
    s.blockTurn = true ∧ s.block.phase = .run .rx ∧ s.host.queue = badCrc arpReq :: [queued echoReq]
      ∧ (badCrc arpReq).crcValid = false ∧ s.block.evtLatch = false := by decide +kernel

/-- A CRC-valid frame of declared length exactly 4, further frames queued; and a bit-clear one of length 0. -/
theorem witness_RxOfABadFrameEndsTheLoop_short :
    let s := running .rx [onlyCrc, queued echoReq] State.reset
    let g : QueuedFrame := { next := 0, crcValid := false, bytes := [] }
    s.blockTurn = true ∧ s.block.phase = .run .rx ∧ s.host.queue = onlyCrc :: [queued echoReq]
      ∧ onlyCrc.crcValid = true ∧ onlyCrc.bytes.length = 4 ∧ s.block.evtLatch = false ∧ g.crcValid = false := by decide +kernel

/-- Declared length 5, the shortest delivery; and one longer than the buffer. -/
theorem witness_RxDeliversAGoodFrame :
    let s := running .rx [queued [0xAA]] State.reset
    s.pending = [] ∧ s.block.phase = .run .rx ∧ s.host.queue = queued [0xAA] :: [] ∧ (queued [0xAA]).crcValid = true
      ∧ 5 ≤ (queued [0xAA]).bytes.length ∧ (queued (echoReq ++ echoReq)).crcValid = true
      ∧ 5 ≤ (queued (echoReq ++ echoReq)).bytes.length ∧ 64 < (queued (echoReq ++ echoReq)).bytes.length - 4 := by
  decide +kernel

/-- Declared lengths 0 and 3. -/
theorem witness_RxOfAWrappedLengthIsRefused :
    let f : QueuedFrame := { next := 0, crcValid := true, bytes := [1, 2, 3] }
    let g : QueuedFrame := { next := 0, crcValid := true, bytes := [] }
    let s := running .rx [f] State.reset
    s.blockTurn = true ∧ s.block.phase = .run .rx ∧ s.host.queue = f :: [] ∧ f.crcValid = true ∧ f.bytes.length < 4
      ∧ g.crcValid = true ∧ g.bytes.length < 4 := by decide +kernel

theorem witness_TxHandsOverTheReply : (running .tx [] (loaded arpRep)).blockTurn = true
    ∧ (running .tx [] (loaded arpRep)).block.phase = .run .tx := by decide +kernel

/-- The scenario S7 itself. -/
theorem witness_OneRequestOneReply :
    let f := queued arpReq
    let s : State := { State.reset with host := { inputs := [.inTurn .evt], cycle := [], queue := [f], ringPtr := 0, trace := [] } }
    s.block.params.numbers = Numbers.r6 ∧ s.block.phase = .idle ∧ s.block.evtLatch = false
      ∧ s.host.inputs = [.inTurn .evt] ∧ s.host.cycle = [] ∧ s.host.queue = [f]
      ∧ f.crcValid = true ∧ f.bytes.length = 46 ∧ f.bytes.getD 12 0 = 0x08 ∧ f.bytes.getD 13 0 = 0x06
      ∧ (∀ k < 4, f.bytes.getD (38 + k) 0 = (ipBytes s.block.params.myip).getD k 0) := by decide +kernel

/-- A packet for this device that is no echo request, and a frame for someone else. -/
theorem witness_DroppedFramesSendNothing : ∀ bytes ∈ [udpFrm, arpReq.set 41 0xC9],
    let s := running .step [] (loaded bytes)
    s.pending = [] ∧ s.block.phase = .run .step ∧ s.host.queue = [] ∧ s.block.evtLatch = false
      ∧ ¬ s.block.ArpForMe ∧ ¬ (s.block.IpForMe ∧ s.block.EchoRequest) := by decide +kernel

theorem witness_UpdateDrainsTheQueue :
    let s := running .rx [queued udpFrm, queued echoReq] State.reset
    s.pending = [] ∧ s.block.phase = .run .rx ∧ s.block.evtLatch = false
      ∧ (∀ f ∈ s.host.queue, f.crcValid = true ∧ 5 ≤ f.bytes.length) := by decide +kernel

theorem witness_UpdateEndsOnlyOnRxZero :
    let s := running .rx [] State.reset
    let t : State := { s with block := State.reset.block, host := { s.host with trace := [.rx 0] } }
    s.block.phase.busy = true ∧ step s = .next t ∧ t.block.phase = .idle := ⟨rfl, rfl, rfl⟩

/-- A flood, before its first arrival: a frame at `tx`, nothing queued, and the same frame arriving for ever. -/
theorem witness_UpdateEndsOnlyOnRxZero_flood :
    let f := queued arpReq
    let s := forever [.atOnce (.arrive f), .tick] (running .tx [] (loaded arpRep))
    s.block.phase.busy = true ∧ f.crcValid = true ∧ 5 ≤ f.bytes.length ∧ s.host.inputs = []
      ∧ (∀ g ∈ s.host.queue, g.crcValid = true ∧ 5 ≤ g.bytes.length) ∧ s.host.cycle = [.atOnce (.arrive f), .tick] := by
  decide +kernel

theorem witness_EventStartsUpdate : (next (.atOnce .evt) State.reset).Performs .evt
    ∧ (next (.inTurn .evt) State.reset).Performs .evt ∧ State.reset.block.phase = .idle := by decide +kernel

/-- Both values of `EVT_WHILE_BUSY`, and the restart. -/
theorem witness_EventWhileBusy :
    let s := next (.atOnce .evt) (running .step [] (loaded arpReq))
    (s.Performs .evt ∧ s.block.phase.busy = true ∧ s.block.params.evtWhileBusy = .ignored)
      ∧ ((latching s).Performs .evt ∧ (latching s).block.phase.busy = true
        ∧ (latching s).block.params.evtWhileBusy = .latched)
      ∧ (let r := latched (latching (running .rx [] State.reset))
         r.blockTurn = true ∧ r.block.phase = .run .rx ∧ r.host.queue = [] ∧ r.block.evtLatch = true)
      ∧ (let r := latched (latching (running .rx [badCrc arpReq] State.reset))
         r.blockTurn = true ∧ r.block.phase = .run .rx ∧ r.host.queue = badCrc arpReq :: []
           ∧ (badCrc arpReq).crcValid = false ∧ r.block.evtLatch = true)
      ∧ (let r := latched (latching (running .rx [onlyCrc] State.reset))
         r.blockTurn = true ∧ r.block.phase = .run .rx ∧ r.host.queue = onlyCrc :: []
           ∧ onlyCrc.bytes.length = 4 ∧ r.block.evtLatch = true) := by
  decide +kernel

theorem witness_HostExclusionWhileRunning :
    let s := next (.atOnce (.rd 0x01)) (running .step [] State.reset)
    let r := next (.atOnce (.wr 0x00 0x08)) (running .rx [] State.reset)
    let p := next (.atOnce (.rd 0x02)) (running .rx [] State.reset)
    (s.block.phase.busy = true ∧ s.pending.head? = some (.atOnce (.rd 0x01)))
      ∧ (r.block.phase.busy = true ∧ r.pending.head? = some (.atOnce (.wr 0x00 0x08)))
      ∧ (p.block.phase.busy = true ∧ p.pending.head? = some (.atOnce (.rd 0x02)) ∧ (0x02 : Byte) ≠ 0x01) := by
  decide +kernel

/-- No byte, one, `BUF_CAP-1`, `BUF_CAP`. -/
theorem witness_LoadDeliversOrErr : State.reset.block.phase = .idle
    ∧ (next (.inTurn (.load [])) State.reset).Performs (.load [])
    ∧ (next (.inTurn (.load [0xAA])) State.reset).Performs (.load [0xAA])
    ∧ (∀ n ∈ [63, 64], (next (.inTurn (.load (List.replicate n 0xAA))) State.reset).Performs
        (.load (List.replicate n 0xAA)))
    ∧ (List.replicate 63 (0xAA : Byte)).length ≤ State.reset.block.params.bufCap.bytes - 1
    ∧ State.reset.block.params.bufCap.bytes ≤ (List.replicate 64 (0xAA : Byte)).length := by decide +kernel

theorem witness_UnloadReturnsTheBytes : State.reset.block.phase = .idle
    ∧ (∀ n ∈ [0, 64, 65], (next (.inTurn (.unload n)) State.reset).Performs (.unload n))
    ∧ 64 ≤ State.reset.block.params.bufCap.bytes ∧ State.reset.block.params.bufCap.bytes < 65 := by decide +kernel

theorem witness_PeekAndPoke : State.reset.block.phase = .idle
    ∧ (∀ a ∈ [0, 63, 64], (next (.inTurn (.peek a)) State.reset).Performs (.peek a)
        ∧ (next (.inTurn (.poke a 0xAA)) State.reset).Performs (.poke a 0xAA))
    ∧ 63 < State.reset.block.params.bufCap.bytes ∧ State.reset.block.params.bufCap.bytes ≤ 64 := by decide +kernel

/-- Every register number at which two clauses meet. -/
theorem witness_RegisterReads : State.reset.block.phase = .idle
    ∧ (∀ r ∈ [0x00, 0x01, 0x02, 0x03, 0x04, 0x05, 0x06, 0x07, 0x08, 0x09, 0x0F, 0x10, 0x15, 0x16, 0x17, 0x18, 0x1B, 0x1C, 0xFF],
        (next (.inTurn (.rd r)) State.reset).Performs (.rd r))
    ∧ (0x10 : Byte).toNat = 0x10 + 0 ∧ (0x15 : Byte).toNat = 0x10 + 5 ∧ (0x18 : Byte).toNat = 0x18 + 0
    ∧ (0x1B : Byte).toNat = 0x18 + 3 ∧ 0x1C ≤ (0x1C : Byte).toNat := by decide +kernel

theorem witness_RegisterWrites : State.reset.block.phase = .idle
    ∧ (∀ r ∈ [0x02, 0x05, 0x06, 0x07, 0x01, 0x03, 0x04, 0x08, 0x09, 0x1B, 0xFF],
        (next (.inTurn (.wr r 0xFFFF)) State.reset).Performs (.wr r 0xFFFF))
    ∧ (0x01 : Byte) ∉ [0x00, 0x02, 0x05, 0x06, 0x07] ∧ (0xFF : Byte) ∉ [0x00, 0x02, 0x05, 0x06, 0x07] := by
  decide +kernel

theorem witness_ErrIsSticky :
    let s := next (.inTurn (.rd 0x02)) (erred State.reset)
    s.block.err = true ∧ step s = .next (rdAction s.popInput 0x02) := ⟨rfl, rfl⟩

theorem witness_ErrDoesNotStopTheBlock :
    let s := next (.inTurn (.poke 3 0xAA)) State.reset
    ¬ s.Performs (.rd 0x01)
      ∧ step { s with block := { s.block with err := false } } = .next (pokeAction s.popInput 3 0xAA) :=
  ⟨by decide +kernel, rfl⟩

theorem witness_OnlyMisuseSetsErr_block :
    let s := running .tx [] (loaded arpRep)
    s.blockTurn = true ∧ step s = .next (txStep s) := ⟨rfl, rfl⟩

/-- A legal `CSUM` command. -/
theorem witness_OnlyMisuseSetsErr_wellFormed :
    let s := next (.inTurn (.wr 0x00 0x06)) (withRange 64 0 0 State.reset)
    s.Performs (.wr 0x00 0x06) ∧ step s = .next (s.popInput.onBlock Block.csum)
      ∧ (Action.wr 0x00 0x06).wellFormed s.block.params = true ∧ s.block.csumLegal = true
      ∧ (∀ contents, Action.wr 0x00 0x06 ≠ .reset contents) :=
  ⟨by decide +kernel, rfl, by decide +kernel, by decide +kernel, fun _ h => by cases h⟩

theorem witness_OnlyMisuseSetsErr_illFormed :
    let s := next (.inTurn (.unload 65)) State.reset
    s.Performs (.unload 65) ∧ step s = .next (unloadAction s.popInput 65)
      ∧ (Action.unload 65).wellFormed s.block.params = false ∧ (∀ f, Action.unload 65 ≠ .arrive f) :=
  ⟨by decide +kernel, rfl, by decide +kernel, fun _ h => by cases h⟩

/-- An ill-formed arriving frame, at once while `UPDATE` runs, and one in turn while IDLE. -/
theorem witness_OnlyMisuseSetsErr_arrive :
    let f : QueuedFrame := { next := 0, crcValid := true, bytes := [1, 2, 3] }
    let s := next (.atOnce (.arrive f)) (running .step [] (loaded arpReq))
    s.Performs (.arrive f) ∧ (Action.arrive f).wellFormed s.block.params = false
      ∧ step s = .next (arriveAction s.popInput f)
      ∧ (next (.inTurn (.arrive f)) State.reset).Performs (.arrive f) :=
  ⟨by decide +kernel, by decide +kernel, rfl, by decide +kernel⟩

/-- Frames queued, an event to come, and frames arriving for ever. -/
theorem witness_ReceivedFramesNeverSetErr :
    let f : QueuedFrame := { next := 0, crcValid := true, bytes := [1, 2, 3] }
    let s := forever [.atOnce (.arrive f), .tick] (next (.inTurn .evt) (running .rx [queued arpReq, badCrc echoReq] State.reset))
    (∀ i ∈ s.host.inputs ++ s.host.cycle, i = .tick ∨
        ∃ a, (i = .atOnce a ∨ i = .inTurn a) ∧ (a = .evt ∨ ∃ g, a = .arrive g)) ∧ ¬ s.GoneWrong := by
  intro f s
  refine ⟨fun i hi => ?_, by decide +kernel⟩
  have hi : i ∈ [Input.inTurn .evt, .atOnce (.arrive f), .tick] := hi
  simp only [List.mem_cons, List.not_mem_nil, or_false] at hi
  rcases hi with rfl | rfl | rfl
  · exact .inr ⟨_, .inr rfl, .inl rfl⟩
  · exact .inr ⟨_, .inl rfl, .inr ⟨f, rfl⟩⟩
  · exact .inl rfl

theorem witness_IdentityNeverChanges :
    let s := next (.inTurn (.reset [0xAA])) State.reset
    step s = .next (resetAction s.popInput [0xAA]) := rfl

/-- A reset in the middle of a running `UPDATE`. -/
theorem witness_ResetPutsEveryRegister :
    (next (.atOnce (.reset [0xAA, 0xBB])) (running .tx [] (erred (loaded arpRep)))).Performs (.reset [0xAA, 0xBB]) := by
  decide +kernel

theorem witness_ConstructionClampsCapacity : 43 ≤ 43 ∧ 43 ≤ 1500 ∧ 43 ≤ 1501 ∧ 42 < 43
    ∧ Numbers.r6 = { arpMinLen := 14, ipMinLen := 34, arpReplyLen := 42, replyTtl := 64, plenAdj := 8 } := by decide

theorem witness_ResetMeetsTheInvariant : Params.common.numbers = Numbers.r6 ∧ Params.common.numbersOk = true
    ∧ (Memory.ofBytes arpReq).wf = true
    ∧ (Memory.ofBytes arpReq).below Params.common.bufCap.bytes = true := by decide +kernel

theorem witness_EveryStepKeepsTheInvariant :
    let s := running .tx [queued echoReq] { loaded arpRep with block := { (loaded arpRep).block with send := true, rlen := 42 } }
    s.Inv ∧ step s = .next (txStep s) := ⟨by decide +kernel, rfl⟩

end Sys2Proof.Tests
end

section
/-! The loop of `fold16` (00_scope.md R13). Its bound on passes is immaterial once it is at least the number folded, so
`fold16` satisfies the equations of the unbounded loop. -/

namespace Sys2Proof.Machine

/-- The loop stops at once at a number that fits 16 bits. -/
theorem foldLoop_of_lt (passes : Nat) {s : Nat} (h : s < 0x10000) : foldLoop passes s = s := by
  cases passes with
  | zero => rfl
  | succ p => exact if_pos h

/-- One pass of the loop, at a number that does not fit 16 bits. -/
theorem foldLoop_succ_of_le (p : Nat) {s : Nat} (h : 0x10000 ≤ s) :
    foldLoop (p + 1) s = foldLoop p (s % 0x10000 + s / 0x10000) :=
  if_neg (Nat.not_lt.mpr h)

/-- Two bounds on the passes give the same result when both are at least the number folded: a pass lowers that number,
so it stays within what is left of either bound. -/
theorem foldLoop_eq_foldLoop {p q s : Nat} (hp : s ≤ p) (hq : s ≤ q) : foldLoop p s = foldLoop q s := by
  induction p generalizing q s with
  | zero => rw [foldLoop_of_lt 0 (by omega), foldLoop_of_lt q (by omega)]
  | succ p ih =>
    obtain hlt | hle := Nat.lt_or_ge s 0x10000
    · rw [foldLoop_of_lt _ hlt, foldLoop_of_lt _ hlt]
    · obtain ⟨q, rfl⟩ : ∃ q', q = q' + 1 := ⟨q - 1, by omega⟩
      rw [foldLoop_succ_of_le p hle, foldLoop_succ_of_le q hle]
      exact ih (by omega) (by omega)

/-- The loop's own equation: `fold16` folds a number that does not fit 16 bits once and goes on (R13). -/
theorem fold16_of_le {s : Nat} (h : 0x10000 ≤ s) : fold16 s = fold16 (s % 0x10000 + s / 0x10000) := by
  obtain ⟨p, rfl⟩ : ∃ p, s = p + 1 := ⟨s - 1, by omega⟩
  rw [fold16, foldLoop_succ_of_le p h]
  exact foldLoop_eq_foldLoop (by omega) (Nat.le_refl _)

/-- Settles O14: `fold16` meets both equations of R13's loop and fits 16 bits; `ocadd16` and `not16` unfold. -/
theorem foldIsTheLoop : Obligations.FoldIsTheLoop :=
  ⟨fun _ => fold16_of_lt, fun _ => fold16_of_le, fun s => Nat.le_of_lt_succ (fold16_lt s), fun _ _ => rfl, fun _ => rfl⟩

end Sys2Proof.Machine
end

section
/-! The forms of an instruction's effect, and the frame in the buffer and its class: the frame decoder (30_encoding.md
R78 to R82, R87) and the dispatch of 43_poll.md R160 agree, so that the `STEP` of a running `UPDATE` is the command
`STEP`. -/

namespace Sys2Proof.Machine

/-- The frame class as an instruction of its own (30_encoding.md R78 to R82). -/
def FrameClass.instr : FrameClass → Instr
  | .notMe => .frameNotMe
  | .arp => .frameArp
  | .echo => .frameEcho
  | .ipOther => .frameIpOther

/-- A frame class acts as the arm of `STEP` for it (43_poll.md R160). -/
theorem effect_instr (c : FrameClass) (b : Block) : effect c.instr b = b.answer c := by
  cases c <;> rfl

/-- The forms of an effect: most instructions answer a frame or set `MATCH`. -/
theorem effect_forms (i : Instr) (b : Block) :
    (∃ c, effect i b = b.answer c) ∨ (∃ r, effect i b = b.setMatch r) ∨ effect i b = b.mkarp ∨
      effect i b = b.mkecho ∨ effect i b = b.csum ∨ effect i b = b.startUpdate := by
  cases i with
  | step => exact .inl ⟨b.classify, rfl⟩
  | frameArp => exact .inl ⟨.arp, rfl⟩
  | frameEcho => exact .inl ⟨.echo, rfl⟩
  | frameIpOther => exact .inl ⟨.ipOther, rfl⟩
  | frameNotMe => exact .inl ⟨.notMe, rfl⟩
  | isarp | isipme | isecho => exact .inr (.inl ⟨_, rfl⟩)
  | mkarp => exact .inr (.inr (.inl rfl))
  | mkecho => exact .inr (.inr (.inr (.inl rfl)))
  | csum => exact .inr (.inr (.inr (.inr (.inl rfl))))
  | update => exact .inr (.inr (.inr (.inr (.inr rfl))))

/-- What the row of a frame class asks of the frame, by the tests of the classifiers. -/
def Block.hasPattern (b : Block) : Instr → Bool
  | .frameArp => b.isArp
  | .frameEcho => b.isIpMe && b.isEcho
  | .frameIpOther => b.isIpMe
  | _ => true

/-- Every row of the frame table (30_encoding.md R87) is a conjunction of classifier tests. -/
theorem matchesFrame_eq_hasPattern (b : Block) {r : FrameRow} (hr : r ∈ frameRows b.params.numbers) :
    r.matchesFrame b.params.myip b.len.toNat b.byte = b.hasPattern r.instr := by
  simp only [frameRows, List.mem_cons, List.not_mem_nil, or_false] at hr
  have hip : equalsIpAt b.params.myip b.byte = b.isMyIpAt := rfl
  obtain rfl | rfl | rfl | rfl := hr <;>
    simp [FrameRow.matchesFrame, Block.hasPattern, Block.isArp, Block.isIpMe, Block.isEcho, hip, Bool.and_assoc,
      Bool.and_comm (b.isMyIpAt 30)]

/-- The decoder and the dispatch give a frame the same class (30_encoding.md R87, 43_poll.md R162). -/
theorem fetchFrame_eq (b : Block) : b.fetchFrame = b.classify.instr := by
  rw [Block.fetchFrame, decodeFrame, List.find?_congr (fun _ hr => matchesFrame_eq_hasPattern b hr)]
  simp only [frameRows, List.find?, Block.hasPattern, Block.classify]
  cases b.isArp <;> cases b.isIpMe <;> cases b.isEcho <;> rfl

/-- The `STEP` of a running `UPDATE` does what the command `STEP` does. -/
theorem effect_fetchFrame (b : Block) : effect b.fetchFrame b = b.answer b.classify := by
  rw [fetchFrame_eq, effect_instr]

end Sys2Proof.Machine
end

section
/-! What a step can do to the block, said once: `Block.Move` lists it and `step_move` says that every step is on the
list, so that what every step keeps of the block is proved by a case analysis over `Block.Move`. -/

namespace Sys2Proof.Machine

/-- The moves of the block: one constructor per arm of `performAction` (44_host_access.md, 60_exceptions.md R206, R207,
70_reset_and_hazards.md R230) and of `blockStep` (43_poll.md R165), with what is known of the block where it is made. -/
inductive Block.Move (b : Block) : Block → Prop
  | stay : b.Move b
  | raiseErr : b.phase = .idle → b.Move b.raiseErr
  | deliver (data : List Byte) : b.phase = .idle → data.length < b.cap → b.Move (b.deliver data)
  | poke (a : Nat) (v : Byte) : b.phase = .idle → a < b.cap → b.Move (b.setFb (b.fb.write a v))
  | writeReg (reg : Byte) (v : Half) : b.phase = .idle → b.Move (b.writeReg reg v)
  | command (i : Instr) : b.phase = .idle → b.Move (effect i b)
  | event : b.phase.busy = true → b.Move b.evtWhileBusy
  | reset (contents : List Byte) : b.Move (Block.resetWith b.params (Memory.ofBytes (contents.take b.cap)))
  | rx (data : List Byte) : b.phase = .run .rx → data.length ≤ b.cap - 1 → b.Move (b.afterRx data)
  | load (data : List Byte) : b.phase = .run (.load data) → b.Move ((b.deliver data).setPhase (.run .step))
  | frame : b.phase = .run .step → b.Move (b.answer b.classify).afterStep
  | tx : b.phase = .run .tx → b.Move (b.setPhase (.run .rx))

theorem Phase.busy_iff (p : Phase) : p.busy = true ↔ p ≠ .idle := by
  cases p <;> simp

/-- An action of the outside moves the block. -/
theorem performAction_move {a : Action} {s t : State} (h : performAction a s = .next t) :
    s.block.Move t.block := by
  obtain ⟨hrun, h⟩ := performAction_next h
  have idle (ha : a.allowedWhileRunning = false) : s.block.phase = .idle := by
    by_contra hp
    simp [hrun ((Phase.busy_iff _).mpr hp)] at ha
  cases a with
  | load data =>
    rw [h]
    by_cases hd : data.length < s.block.params.bufCap.bytes
    · simpa [loadAction, Block.load_fits hd] using .deliver data (idle rfl) hd
    · simpa [loadAction, Block.load_too_long hd] using .raiseErr (idle rfl)
  | unload n =>
    rw [h, unloadAction]
    split
    · exact .stay
    · exact .raiseErr (idle rfl)
  | peek x =>
    rw [h, peekAction]
    split
    · exact .stay
    · exact .raiseErr (idle rfl)
  | poke x v =>
    rw [h, pokeAction]
    split
    · next hx => exact .poke x v (idle rfl) hx
    · exact .raiseErr (idle rfl)
  | rd reg => rw [h]; exact .stay
  | wr reg v =>
    obtain ⟨-, rfl⟩ | ⟨-, ⟨i, -, hi⟩ | ⟨-, rfl⟩⟩ := h
    · exact .writeReg reg v (idle rfl)
    · obtain ⟨rfl, -⟩ := exec_next hi
      exact .command i (idle rfl)
    · exact .raiseErr (idle rfl)
  | evt =>
    obtain ⟨hp, rfl⟩ | ⟨hb, rfl⟩ := h
    · exact .command .update hp
    · exact .event hb
  | reset contents => rw [h]; exact .reset contents
  | arrive f => rw [h]; exact .stay

/-- The block's own step moves the block. -/
theorem blockStep_move {s t : State} (h : blockStep s = .next t) : s.block.Move t.block := by
  obtain ⟨-, rfl⟩ | ⟨hp, hrx⟩ | ⟨data, hp, rfl⟩ | ⟨hp, rfl⟩ | ⟨hp, rfl⟩ := blockStep_next h
  · exact .stay
  · obtain ⟨data, hs, rfl, hlen, -⟩ := rxStep_next hrx
    exact .rx data hp hlen
  · exact .load data hp
  · simpa [effect_fetchFrame] using Block.Move.frame hp
  · exact .tx hp

/-- Every step moves the block. -/
theorem step_move {s t : State} (h : step s = .next t) : s.block.Move t.block := by
  obtain ⟨-, hown⟩ | ⟨a, -, ha⟩ := step_next_cases h
  · simpa using blockStep_move hown
  · simpa using performAction_move ha

end Sys2Proof.Machine
end

section
/-! The invariant (10_state.md R20, R21; 60_exceptions.md R207) in three parts, each kept by every move of the block: the
data, what a running `UPDATE` hands from step to step, and the event latch. -/

namespace Sys2Proof.Machine

/-- The part of the invariant that speaks of the parameters, the buffer and the two lengths. -/
structure Block.DataOk (b : Block) : Prop where
  numbers : b.params.numbersOk = true
  wf : b.fb.wf = true
  below : b.fb.below b.cap = true
  len_le : b.len.toNat ≤ b.cap - 1
  rlen_le : b.rlen.toNat ≤ b.cap - 1

/-- The part of the invariant that speaks of the event latch (60_exceptions.md R207). -/
def Block.LatchOk (b : Block) : Prop :=
  b.evtLatch = true → b.params.evtWhileBusy = .latched ∧ b.phase.busy = true

theorem Block.inv_iff (b : Block) : b.Inv ↔ b.DataOk ∧ b.phaseOk = true ∧ b.LatchOk :=
  ⟨fun ⟨hnum, hwf, hbelow, hlen, hrlen, hphase, hlatch⟩ => ⟨⟨hnum, hwf, hbelow, hlen, hrlen⟩, hphase, hlatch⟩,
    fun ⟨⟨hnum, hwf, hbelow, hlen, hrlen⟩, hphase, hlatch⟩ => ⟨hnum, hwf, hbelow, hlen, hrlen, hphase, hlatch⟩⟩

/-! ### The data -/

namespace Block.DataOk

variable {b c : Block}

theorem congr (h : b.DataOk) (hparams : c.params = b.params) (hfb : c.fb = b.fb) (hlen : c.len = b.len)
    (hrlen : c.rlen = b.rlen) : c.DataOk := by
  have hcap : c.cap = b.cap := by rw [Block.cap, hparams, Block.cap]
  constructor
  · rw [hparams]; exact h.numbers
  · rw [hfb]; exact h.wf
  · rw [hfb, hcap]; exact h.below
  · rw [hlen, hcap]; exact h.len_le
  · rw [hrlen, hcap]; exact h.rlen_le

theorem setFb (h : b.DataOk) {m : Memory} (hwf : m.wf = true) (hbelow : m.below b.cap = true) : (b.setFb m).DataOk :=
  { h with wf := hwf, below := hbelow }

theorem setLen (h : b.DataOk) {v : Half} (hv : v.toNat ≤ b.cap - 1) : (b.setLen v).DataOk := { h with len_le := hv }

theorem setRlen (h : b.DataOk) {v : Half} (hv : v.toNat ≤ b.cap - 1) : (b.setRlen v).DataOk := { h with rlen_le := hv }

theorem raiseErr (h : b.DataOk) : b.raiseErr.DataOk := h.congr rfl rfl rfl rfl

theorem setPhase (h : b.DataOk) (p : Phase) : (b.setPhase p).DataOk := h.congr rfl rfl rfl rfl

theorem setLatch (h : b.DataOk) (v : Bool) : (b.setLatch v).DataOk := h.congr rfl rfl rfl rfl

theorem setMatch (h : b.DataOk) (r : Bool) : (b.setMatch r).DataOk := h.congr rfl rfl rfl rfl

theorem setVerdict (h : b.DataOk) (c : FrameClass) (send : Bool) : (b.setVerdict c send).DataOk :=
  h.congr rfl rfl rfl rfl

theorem poke (h : b.DataOk) {a : Nat} (v : Byte) (ha : a < b.cap) : (b.setFb (b.fb.write a v)).DataOk :=
  h.setFb (Memory.wf_write a v h.wf) (Memory.below_write v ha h.below)

theorem deliver (h : b.DataOk) {data : List Byte} (hd : data.length ≤ b.cap - 1) : (b.deliver data).DataOk :=
  have hcap : data.length ≤ b.cap := hd.trans (Nat.sub_le ..)
  (h.setFb (Memory.wf_writeBytes 0 data h.wf) (Memory.below_writeBytes data (by omega) h.below)).setLen
    ((toNat_length hcap).trans_le hd)

theorem mkarp (h : b.DataOk) : b.mkarp.DataOk :=
  (h.setFb (wf_mkarpBuffer h.wf) (below_mkarpBuffer b.params.bufCap.atLeast43 h.below)).setRlen
    ((numbersOk_iff _).mp h.numbers).2.2

theorem mkecho (h : b.DataOk) : b.mkecho.DataOk :=
  (h.setFb (wf_mkechoBuffer h.wf) (below_mkechoBuffer b.params.bufCap.atLeast43 h.below)).setRlen
    (by simpa using h.len_le)

theorem answer (h : b.DataOk) (c : FrameClass) : (b.answer c).DataOk := by
  cases c with
  | arp => exact h.mkarp.setVerdict .arp true
  | echo => exact h.mkecho.setVerdict .echo true
  | notMe => exact (h.setRlen (Nat.zero_le _)).setVerdict .notMe false
  | ipOther => exact (h.setRlen (Nat.zero_le _)).setVerdict .ipOther false

theorem csum (h : b.DataOk) : b.csum.DataOk := by
  rw [Block.csum]
  split
  · exact h.congr rfl rfl rfl rfl
  · exact h.raiseErr

theorem effect (h : b.DataOk) (i : Instr) : (effect i b).DataOk := by
  obtain ⟨c, heq⟩ | ⟨r, heq⟩ | heq | heq | heq | heq := effect_forms i b <;> rw [heq]
  · exact h.answer c
  · exact h.setMatch r
  · exact h.mkarp
  · exact h.mkecho
  · exact h.csum
  · exact h.setPhase _

theorem writeReg (h : b.DataOk) (reg : Byte) (v : Half) : (b.writeReg reg v).DataOk := by
  rw [Block.writeReg]
  split
  · exact h.setLen ((Nat.mod_le ..).trans (Nat.min_le_right ..))
  case h_5 => exact h.raiseErr
  all_goals exact h.congr rfl rfl rfl rfl

theorem evtWhileBusy (h : b.DataOk) : b.evtWhileBusy.DataOk := by
  rw [Block.evtWhileBusy]
  split
  · exact h
  · exact h.setLatch true

theorem endUpdate (h : b.DataOk) : b.endUpdate.DataOk := by
  rw [Block.endUpdate]
  split
  · exact (h.setLatch false).setPhase _
  · exact h.setPhase _

theorem afterRx (h : b.DataOk) (data : List Byte) : (b.afterRx data).DataOk := by
  rw [Block.afterRx]
  split
  · exact (h.setLen (Nat.zero_le _)).endUpdate
  · exact h.setPhase _

theorem resetWith {p : Params} {m : Memory} (hnum : p.numbersOk = true) (hwf : m.wf = true)
    (hbelow : m.below p.bufCap.bytes = true) : (Block.resetWith p m).DataOk :=
  ⟨hnum, hwf, hbelow, Nat.zero_le _, Nat.zero_le _⟩

end Block.DataOk

/-- What a reset puts into the buffer is canonical and inside it. -/
theorem Memory.below_ofBytes_take (cap : Nat) (contents : List Byte) :
    Memory.below cap (Memory.ofBytes (contents.take cap)) = true :=
  Memory.below_writeBytes _ (by rw [List.length_take]; omega) rfl

/-- A `load` step has 1 to `BUF_CAP-1` bytes to deliver. -/
theorem Block.phaseOk_load {b : Block} {data : List Byte} (h : b.phase = .run (.load data)) :
    b.phaseOk = true ↔ 1 ≤ data.length ∧ data.length ≤ b.cap - 1 := by
  simp [Block.phaseOk, h]

/-- A `tx` step has a reply to send. -/
theorem Block.phaseOk_tx {b : Block} (h : b.phase = .run .tx) :
    b.phaseOk = true ↔ b.send = true ∧ 1 ≤ b.rlen.toNat := by
  simp [Block.phaseOk, h]

theorem Block.phaseOk_idle {b : Block} (h : b.phase = .idle) : b.phaseOk = true := by simp [Block.phaseOk, h]

theorem Block.phaseOk_rx {b : Block} (h : b.phase = .run .rx) : b.phaseOk = true := by simp [Block.phaseOk, h]

theorem Block.phaseOk_step {b : Block} (h : b.phase = .run .step) : b.phaseOk = true := by simp [Block.phaseOk, h]

theorem Block.Move.dataOk {b c : Block} (h : b.Move c) (hdata : b.DataOk) (hphase : b.phaseOk = true) : c.DataOk := by
  cases h with
  | stay => exact hdata
  | raiseErr => exact hdata.raiseErr
  | deliver data _ hlen => exact hdata.deliver (Nat.le_sub_one_of_lt hlen)
  | poke a v _ ha => exact hdata.poke v ha
  | writeReg reg v => exact hdata.writeReg reg v
  | command i => exact hdata.effect i
  | event => exact hdata.evtWhileBusy
  | reset contents => exact .resetWith hdata.numbers (Memory.wf_ofBytes _) (Memory.below_ofBytes_take _ contents)
  | rx data => exact hdata.afterRx data
  | load data hp => exact (hdata.deliver ((Block.phaseOk_load hp).mp hphase).2).setPhase _
  | frame => exact (hdata.answer b.classify).setPhase _
  | tx => exact hdata.setPhase _

/-! ### The hand-over from step to step of a running `UPDATE` -/

/-- A frame classified as an echo request has passed the gate `IP_MIN_LEN`. -/
theorem ipMinLen_le_of_classify_echo {b : Block} (h : b.classify = .echo) :
    b.params.numbers.ipMinLen ≤ b.len.toNat := by
  by_contra hlen
  have hip : ¬ b.IpForMe := fun ⟨hgate, _⟩ => hlen hgate
  by_cases harp : b.ArpForMe
  · simp [classify_arp harp] at h
  · simp [classify_notMe harp hip] at h

/-- The reply that `STEP` builds is not empty (44_host_access.md R185). -/
theorem one_le_rlen_of_send_answer {b : Block} (hnum : b.params.numbersOk = true)
    (hsend : (b.answer b.classify).send = true) : 1 ≤ (b.answer b.classify).rlen.toNat := by
  obtain ⟨hip, harp, -⟩ := (numbersOk_iff _).mp hnum
  cases hc : b.classify with
  | arp => exact harp
  | echo => exact hip.trans (ipMinLen_le_of_classify_echo hc)
  | notMe | ipOther => simp [hc, Block.answer] at hsend

/-- An instruction run while IDLE leaves the block IDLE or, `UPDATE`, at its first `rx`. -/
theorem phase_effect_of_idle {b : Block} (h : b.phase = .idle) (i : Instr) :
    (effect i b).phase = .idle ∨ (effect i b).phase = .run .rx := by
  obtain ⟨-, -, -, hphase, -⟩ := effect_frame i b
  by_cases hi : i = .update
  · subst hi; exact .inr rfl
  · exact .inl ((hphase hi).trans h)

/-- A write of a register touches neither the identity, the phase nor the event latch. -/
theorem writeReg_frame (b : Block) (reg : Byte) (v : Half) :
    (b.writeReg reg v).params = b.params ∧ (b.writeReg reg v).phase = b.phase ∧
      (b.writeReg reg v).evtLatch = b.evtLatch := by
  rw [Block.writeReg]
  split <;> exact ⟨rfl, rfl, rfl⟩

/-- The end of an `UPDATE` leaves the block IDLE or, on a set latch, at the next `UPDATE`'s first `rx`; the latch is
then clear (60_exceptions.md R207). -/
theorem endUpdate_frame (b : Block) : b.endUpdate.params = b.params ∧ b.endUpdate.evtLatch = false ∧
    (b.endUpdate.phase = .idle ∨ b.endUpdate.phase = .run .rx) := by
  rw [Block.endUpdate]
  split
  · exact ⟨rfl, rfl, .inr rfl⟩
  · next h => exact ⟨rfl, by simpa using h, .inl rfl⟩

theorem Block.Move.phaseOk {b c : Block} (h : b.Move c) (hdata : b.DataOk) (hphase : b.phaseOk = true) :
    c.phaseOk = true := by
  cases h with
  | stay => exact hphase
  | raiseErr hidle | deliver _ hidle | poke _ _ hidle => exact phaseOk_idle hidle
  | writeReg reg v hidle => exact phaseOk_idle ((writeReg_frame b reg v).2.1.trans hidle)
  | command i hidle => exact (phase_effect_of_idle hidle i).elim phaseOk_idle phaseOk_rx
  | event =>
    rw [evtWhileBusy]
    split <;> exact hphase
  | reset => exact phaseOk_idle rfl
  | rx data _ hlen =>
    rw [afterRx]
    split
    · exact (endUpdate_frame _).2.2.elim phaseOk_idle phaseOk_rx
    · next hne => exact (phaseOk_load rfl).mpr ⟨List.length_pos_iff.mpr hne, hlen⟩
  | load => exact phaseOk_step rfl
  | frame =>
    cases hsend : (b.answer b.classify).send with
    | true =>
      exact (phaseOk_tx (by simp [afterStep, hsend])).mpr ⟨hsend, one_le_rlen_of_send_answer hdata.numbers hsend⟩
    | false => exact phaseOk_rx (by simp [afterStep, hsend])
  | tx => exact phaseOk_rx rfl

/-! ### The identity and the event latch -/

theorem Block.Move.params {b c : Block} (h : b.Move c) : c.params = b.params := by
  cases h with
  | stay | raiseErr | deliver | poke | reset | load | tx => rfl
  | writeReg reg v => exact (writeReg_frame b reg v).1
  | command i => exact (effect_frame i b).1
  | event =>
    rw [evtWhileBusy]
    split <;> rfl
  | rx data =>
    rw [afterRx]
    split
    · exact (endUpdate_frame _).1
    · rfl
  | frame => exact (answer_frame b _).1

theorem Block.LatchOk.of_clear {b : Block} (h : b.evtLatch = false) : b.LatchOk := fun hset => by simp [h] at hset

/-- While IDLE the latch is clear. -/
theorem Block.LatchOk.evtLatch_of_idle {b : Block} (h : b.LatchOk) (hidle : b.phase = .idle) : b.evtLatch = false := by
  by_contra hset
  simpa [hidle] using (h (by simpa using hset)).2

/-- A move into a running `UPDATE` that leaves the latch keeps the part of the invariant about it. -/
theorem Block.LatchOk.congr_busy {b c : Block} (h : b.LatchOk) (hparams : c.params = b.params)
    (hlatch : c.evtLatch = b.evtLatch) (hbusy : c.phase.busy = true) : c.LatchOk := fun hset =>
  ⟨hparams ▸ (h (hlatch ▸ hset)).1, hbusy⟩

theorem Block.Move.latchOk {b c : Block} (h : b.Move c) (hlatch : b.LatchOk) : c.LatchOk := by
  cases h with
  | stay => exact hlatch
  | raiseErr hidle | deliver _ hidle | poke _ _ hidle => exact .of_clear (hlatch.evtLatch_of_idle hidle)
  | writeReg reg v hidle =>
    obtain ⟨-, -, heq⟩ := writeReg_frame b reg v
    exact .of_clear (heq.trans (hlatch.evtLatch_of_idle hidle))
  | command i hidle =>
    obtain ⟨-, -, heq, -⟩ := effect_frame i b
    exact .of_clear (heq.trans (hlatch.evtLatch_of_idle hidle))
  | event hbusy =>
    rw [evtWhileBusy]
    split
    · exact hlatch
    · next hl => exact fun _ => ⟨hl, hbusy⟩
  | reset => exact .of_clear rfl
  | rx data =>
    rw [afterRx]
    split
    · exact .of_clear (endUpdate_frame _).2.1
    · exact hlatch.congr_busy rfl rfl rfl
  | load | tx => exact hlatch.congr_busy rfl rfl rfl
  | frame hp =>
    obtain ⟨hparams, -, -, -, -, -, -, -, -, heq⟩ := answer_frame b b.classify
    exact hlatch.congr_busy hparams heq rfl

/-- Settles O59: each of the three parts of the invariant is kept by every move of the block. -/
theorem everyStepKeepsTheInvariant : Obligations.EveryStepKeepsTheInvariant := by
  intro s t hinv hstep
  have hmove := step_move hstep
  obtain ⟨hdata, hphase, hlatch⟩ := s.block.inv_iff.mp hinv
  exact t.block.inv_iff.mpr ⟨hmove.dataOk hdata hphase, hmove.phaseOk hdata hphase, hmove.latchOk hlatch⟩

/-- Settles O55: no move of the block changes the parameters. -/
theorem identityNeverChanges : Obligations.IdentityNeverChanges := fun _ _ hstep => (step_move hstep).params

/-- Numbers with R6's values fit every buffer (00_scope.md R6). -/
theorem numbersOk_of_r6 {p : Params} (h : p.numbers = Numbers.r6) : p.numbersOk = true := by
  have hcap := p.bufCap.atLeast43
  rw [numbersOk_iff, h]
  exact ⟨by decide, by decide, Nat.le_sub_of_add_le hcap⟩

/-- The reset state meets the invariant for fitting numbers and canonical contents inside the buffer. -/
theorem inv_resetWith {p : Params} {m : Memory} (hnum : p.numbersOk = true) (hwf : m.wf = true)
    (hbelow : m.below p.bufCap.bytes = true) : (State.resetWith p m).Inv :=
  (Block.inv_iff _).mpr ⟨.resetWith hnum hwf hbelow, Block.phaseOk_idle rfl, .of_clear rfl⟩

/-- Settles O58: `State.reset` is the reset state for parameters with R6's numbers and an empty memory. -/
theorem resetMeetsTheInvariant : Obligations.ResetMeetsTheInvariant :=
  ⟨inv_resetWith (numbersOk_of_r6 rfl) rfl rfl, fun _ => numbersOk_of_r6, fun _ _ => inv_resetWith⟩

end Sys2Proof.Machine
end

section
/-! What no instruction changes (10_state.md R28, 20_memory.md R51, R54): beside the fields of `effect_frame`, the
operand registers of `CSUM` and every byte from offset 42 on. -/

namespace Sys2Proof.Machine

/-- No instruction writes an operand register of `CSUM` (10_state.md R28). -/
theorem effect_operands (i : Instr) (b : Block) :
    (effect i b).coff = b.coff ∧ (effect i b).ccnt = b.ccnt ∧ (effect i b).ckind = b.ckind := by
  obtain ⟨c, h⟩ | ⟨r, h⟩ | h | h | h | h := effect_forms i b
  case inl =>
    obtain ⟨-, -, -, hcoff, hccnt, hckind, -⟩ := answer_frame b c
    exact h ▸ ⟨hcoff, hccnt, hckind⟩
  case inr.inr.inr.inr.inl =>
    rw [h, Block.csum]
    split <;> exact ⟨rfl, rfl, rfl⟩
  all_goals simp [h, Block.mkarp, Block.mkecho, Block.startUpdate]

/-! `MKARP` and `MKECHO` write below offset 42 only (20_memory.md R51). -/

theorem read_mkarpBuffer_of_le (p : Params) (old : Memory) {x : Nat} (hx : 42 ≤ x) :
    (mkarpBuffer p old).read x = old.read x := by
  rw [read_mkarpBuffer]
  simp (disch := omega) only [if_neg]

theorem read_mkechoBuffer_of_le (p : Params) (old : Memory) {x : Nat} (hx : 42 ≤ x) :
    (mkechoBuffer p old).read x = old.read x := by
  rw [read_mkechoBuffer, read_mkechoFields]
  simp (disch := omega) only [if_neg]

theorem byte_mkarp_of_le (b : Block) {x : Nat} (hx : 42 ≤ x) : b.mkarp.byte x = b.byte x := by
  simp [Block.byte, Block.mkarp, read_mkarpBuffer_of_le _ _ hx]

theorem byte_mkecho_of_le (b : Block) {x : Nat} (hx : 42 ≤ x) : b.mkecho.byte x = b.byte x := by
  simp [Block.byte, Block.mkecho, read_mkechoBuffer_of_le _ _ hx]

theorem byte_answer_of_le (b : Block) (c : FrameClass) {x : Nat} (hx : 42 ≤ x) : (b.answer c).byte x = b.byte x := by
  cases c with
  | arp => simpa [Block.answer, Block.byte] using byte_mkarp_of_le b hx
  | echo => simpa [Block.answer, Block.byte] using byte_mkecho_of_le b hx
  | notMe | ipOther => rfl

/-- No instruction writes at offset 42 or above (20_memory.md R51). -/
theorem byte_effect_of_le (i : Instr) (b : Block) {x : Nat} (hx : 42 ≤ x) : (effect i b).byte x = b.byte x := by
  obtain ⟨c, h⟩ | ⟨r, h⟩ | h | h | h | h := effect_forms i b <;> rw [h]
  · exact byte_answer_of_le b c hx
  · rfl
  · exact byte_mkarp_of_le b hx
  · exact byte_mkecho_of_le b hx
  · rw [Block.csum]
    split <;> rfl
  · rfl

/-- Settles O23: an instruction that completes is its effect on the block, and each field has its frame lemma. -/
theorem instructionsFrame : Obligations.InstructionsFrame := by
  intro i s t h
  obtain ⟨rfl, -⟩ := exec_next h
  obtain ⟨hparams, hlen, hlatch, hphase, herr⟩ := effect_frame i s.block
  obtain ⟨hcoff, hccnt, hckind⟩ := effect_operands i s.block
  exact ⟨rfl, hparams, hlen, hcoff, hccnt, hckind, hlatch, hphase, herr, fun _ => byte_effect_of_le i s.block⟩

end Sys2Proof.Machine
end

section
/-! The host's accesses to the control registers while IDLE (10_state.md R27, R30; 44_host_access.md R184), the bits of
`STATUS` (R25, R26), and reset (R33, 70_reset_and_hazards.md R230). -/

namespace Sys2Proof.Machine

/-! ### What a step does when an access is next -/

theorem step_rd {s : State} {reg : Byte} (h : s.Performs (.rd reg)) (hidle : s.block.phase = .idle) :
    step s = .next (rdAction s.popInput reg) := by
  rw [step_of_performs h]
  simp [performAction, hidle]

theorem step_wr {s : State} {reg : Byte} {v : Half} (h : s.Performs (.wr reg v)) (hidle : s.block.phase = .idle)
    (hreg : reg ≠ 0x00) : step s = .next (s.popInput.onBlock (fun b => b.writeReg reg v)) := by
  rw [step_of_performs h]
  simp only [performAction, hidle, State.block_popInput, Phase.busy_idle, Bool.false_and, if_neg hreg]
  rfl

theorem step_wr_cmd {s : State} {v : Half} (h : s.Performs (.wr 0x00 v)) (hidle : s.block.phase = .idle) :
    step s = commandAction s.popInput v := by
  rw [step_of_performs h]
  simp [performAction, hidle]

theorem step_reset {s : State} {contents : List Byte} (h : s.Performs (.reset contents)) :
    step s = .next (resetAction s.popInput contents) := by
  rw [step_of_performs h]
  simp [performAction, Action.allowedWhileRunning]

/-- Settles O26: the byte written to `CMD` is its own command code. -/
theorem stepRunsTheDecodedCommand : Obligations.StepRunsTheDecodedCommand := by
  intro s code i hperf hidle hcode
  rw [step_wr_cmd hperf hidle]
  simp [commandAction, hcode]

/-! ### Reads -/

theorem readReg_mymac (b : Block) {reg : Byte} {k : Nat} (hk : k < 6) (hreg : reg.toNat = 0x10 + k) :
    (b.readReg reg).toNat = ((macBytes b.params.mymac).getD k 0).toNat := by
  have hbyte (v : Byte) : (v.setWidth 16).toNat = v.toNat := BitVec.toNat_setWidth_of_le (by decide)
  interval_cases k <;> rw [Block.readReg, hreg] <;> exact hbyte _

theorem readReg_myip (b : Block) {reg : Byte} {k : Nat} (hk : k < 4) (hreg : reg.toNat = 0x18 + k) :
    (b.readReg reg).toNat = ((ipBytes b.params.myip).getD k 0).toNat := by
  have hbyte (v : Byte) : (v.setWidth 16).toNat = v.toNat := BitVec.toNat_setWidth_of_le (by decide)
  interval_cases k <;> rw [Block.readReg, hreg] <;> exact hbyte _

/-- `CMD` and every reserved number read as 0 (10_state.md R30). -/
theorem readReg_reserved (b : Block) {reg : Byte}
    (hreg : reg = 0x00 ∨ (0x09 ≤ reg.toNat ∧ reg.toNat ≤ 0x0F) ∨ reg = 0x16 ∨ reg = 0x17 ∨ 0x1C ≤ reg.toNat) :
    b.readReg reg = 0 := by
  simp only [← BitVec.toNat_inj, BitVec.ofNat_eq_ofNat, BitVec.toNat_ofNat] at hreg
  unfold Block.readReg
  split
  case h_19 => rfl
  all_goals omega

/-- Settles O48: the value returned is `readReg`. -/
theorem registerReads : Obligations.RegisterReads := by
  intro s reg hperf hidle
  refine ⟨s.block.readReg reg, step_rd hperf hidle, ?status, ?len, ?rlen, ?csumr, ?coff, ?ccnt, ?ckind, ?cap,
    fun _ => readReg_mymac s.block, fun _ => readReg_myip s.block, readReg_reserved s.block⟩
  all_goals rintro rfl
  case status | ckind => exact BitVec.toNat_setWidth_of_le (by decide)
  case cap => exact toNat_length (Nat.le_refl _)
  all_goals rfl

/-! ### Writes -/

/-- `LEN` takes at most `BUF_CAP-1` (44_host_access.md R184). -/
theorem toNat_clampLen (b : Block) (v : Half) : (b.clampLen v).toNat = min v.toNat (b.cap - 1) :=
  toNat_length ((Nat.min_le_right ..).trans (Nat.sub_le b.cap 1))

/-- A read-only or reserved register takes no write (10_state.md R30). -/
theorem writeReg_raises (b : Block) {reg : Byte} (v : Half) (hreg : reg ∉ [0x00, 0x02, 0x05, 0x06, 0x07]) :
    b.writeReg reg v = b.raiseErr := by
  simp only [List.mem_cons, ← BitVec.toNat_inj] at hreg
  unfold Block.writeReg
  split
  case h_5 => rfl
  all_goals simp_all

/-- Settles O49: each writable number is one arm of `writeReg`, every other one `raise Err`. -/
theorem registerWrites : Obligations.RegisterWrites := by
  intro s reg v hperf hidle
  refine ⟨?_, ?_, ?_, ?_, ?_⟩
  · rintro rfl
    exact ⟨s.block.clampLen v, toNat_clampLen s.block v, step_wr hperf hidle (by decide)⟩
  · rintro rfl
    exact step_wr hperf hidle (by decide)
  · rintro rfl
    exact step_wr hperf hidle (by decide)
  · rintro rfl
    exact ⟨v.setWidth 2, BitVec.toNat_setWidth .., step_wr hperf hidle (by decide)⟩
  · intro hreg
    rw [step_wr hperf hidle (fun h => hreg (by simp [h])), State.onBlock, writeReg_raises _ v hreg]
    rfl

/-! ### The bits of `STATUS` -/

/-- `STATUS` as a number (10_state.md R25). -/
theorem toNat_statusByte (b : Block) : b.statusByte.toNat =
    32 * b.phase.busy.toNat + 16 * b.err.toNat + 4 * b.cls.code.toNat + 2 * b.send.toNat + b.matched.toNat := by
  simp only [Block.statusByte, BitVec.toNat_append, ← Nat.shiftLeft_add_eq_or_of_lt, BitVec.isLt]
  simp only [Nat.shiftLeft_eq, BitVec.toNat_ofBool, BitVec.toNat_ofNat]
  omega

theorem FrameClass.toNat_code (c : FrameClass) :
    c.code.toNat = match c with | .notMe => 0 | .arp => 1 | .echo => 2 | .ipOther => 3 := by
  cases c <;> rfl

/-- Settles O50: the single bits by the parts `STATUS` is put together from, the two fields by its value. -/
theorem statusBits : Obligations.StatusBits := by
  intro b
  have hvalue := toNat_statusByte b
  have hcode := b.cls.code.isLt
  have hbusy := b.phase.busy.toNat_lt
  have herr := b.err.toNat_lt
  have hsend := b.send.toNat_lt
  have hmatched := b.matched.toNat_lt
  refine ⟨?matched, ?send, ?cls, ?err, ?busy, by omega⟩
  case cls => exact Eq.trans (by omega) b.cls.toNat_code
  case busy =>
    rw [← Phase.busy_iff]
    simp only [Block.statusByte, BitVec.getLsbD_append]
    simp
  all_goals
    simp only [Block.statusByte, BitVec.getLsbD_append]
    simp

/-! ### Reset -/

theorem statusByte_resetWith (p : Params) (m : Memory) : (Block.resetWith p m).statusByte = 0x00 := by
  rw [← BitVec.toNat_inj, toNat_statusByte]
  rfl

/-- What the buffer holds where the contents reach. -/
theorem read_ofBytes_take (contents : List Byte) {cap a : Nat} (ha : a < contents.length) (hcap : a < cap) :
    (Memory.ofBytes (contents.take cap)).read a = contents.getD a 0 := by
  rw [Memory.ofBytes, Memory.read_writeBytes, if_pos (by rw [List.length_take]; omega)]
  simp [List.getD, hcap]

/-- Settles O56: the step is `resetAction`, in every phase. -/
theorem resetPutsEveryRegister : Obligations.ResetPutsEveryRegister := by
  intro s contents hperf
  exact ⟨_, step_reset hperf, rfl, rfl, statusByte_resetWith .., fun a ha hcap => read_ofBytes_take contents ha hcap⟩

end Sys2Proof.Machine
end

section
/-! The read footprints of the classifiers (20_memory.md R54), idempotence (R55), the classification of a reply the block
just built (R61), and what the host may do while `PHASE = RUN` (R58). -/

namespace Sys2Proof.Machine

/-! ### A classifier reads its footprint only -/

theorem Block.isArp_congr {b b' : Block} (hip : b.params.myip = b'.params.myip)
    (hnum : b.params.numbers = b'.params.numbers) (hlen : b.len = b'.len)
    (hbyte : ∀ a ∈ [12, 13, 38, 39, 40, 41], b.byte a = b'.byte a) : b.isArp = b'.isArp := by
  obtain ⟨h12, h13, h38, h39, h40, h41, -⟩ := by simpa only [List.forall_mem_cons] using hbyte
  simp only [Block.isArp, Block.isMyIpAt, hip, hnum, hlen, h12, h13, h38, h39, h40, h41]

theorem Block.isIpMe_congr {b b' : Block} (hip : b.params.myip = b'.params.myip)
    (hnum : b.params.numbers = b'.params.numbers) (hlen : b.len = b'.len)
    (hbyte : ∀ a ∈ [12, 13, 14, 30, 31, 32, 33], b.byte a = b'.byte a) : b.isIpMe = b'.isIpMe := by
  obtain ⟨h12, h13, h14, h30, h31, h32, h33, -⟩ := by simpa only [List.forall_mem_cons] using hbyte
  simp only [Block.isIpMe, Block.isMyIpAt, hip, hnum, hlen, h12, h13, h14, h30, h31, h32, h33]

theorem Block.isEcho_congr {b b' : Block} (hbyte : ∀ a ∈ [23, 34], b.byte a = b'.byte a) : b.isEcho = b'.isEcho := by
  obtain ⟨h23, h34, -⟩ := by simpa only [List.forall_mem_cons] using hbyte
  simp only [Block.isEcho, h23, h34]

/-- Settles O4: `MATCH` is the classifier's test, which reads the listed bytes, `LEN`, `MYIP` and the gates. -/
theorem classifiersReadTheirFootprintOnly : Obligations.ClassifiersReadTheirFootprintOnly := by
  intro s s' hip hnum
  refine ⟨fun t t' h h' hlen hbyte => ?isarp, fun t t' h h' hlen hbyte => ?isipme, fun t t' h h' hbyte => ?isecho⟩
  all_goals
    obtain ⟨rfl, -⟩ := exec_next h
    obtain ⟨rfl, -⟩ := exec_next h'
  case isarp => exact Block.isArp_congr hip hnum hlen hbyte
  case isipme => exact Block.isIpMe_congr hip hnum hlen hbyte
  case isecho => exact Block.isEcho_congr hbyte

/-! ### Idempotence -/

/-- `CSUM` reads neither its result register nor `STATUS.ERR`: a second run meets the same operands. -/
theorem Block.csum_csum (b : Block) : b.csum.csum = b.csum := by
  by_cases h : b.csumLegal = true
  · rw [Block.csum_legal h]
    exact Block.csum_legal h
  · rw [Block.csum_illegal h]
    exact Block.csum_illegal h

/-- A classifier reads nothing it writes. -/
theorem effect_effect_of_mem {i : Instr} (hi : i ∈ [Instr.isarp, .isipme, .isecho, .csum]) (b : Block) :
    effect i (effect i b) = effect i b := by
  simp only [List.mem_cons, List.not_mem_nil, or_false] at hi
  obtain rfl | rfl | rfl | rfl := hi
  case inr.inr.inr => exact b.csum_csum
  all_goals rfl

/-- Settles O5: the four effects are idempotent on the block. -/
theorem classifiersAndCsumAreIdempotent : Obligations.ClassifiersAndCsumAreIdempotent := by
  intro i hi s t h
  obtain ⟨rfl, -⟩ := exec_next h
  rw [exec_eq i _ (by rintro rfl; simp at hi)]
  simp only [State.onBlock, effect_effect_of_mem hi]

/-! ### A reply classified again -/

/-- `MKARP` keeps what `ISARP` reads but the target address, now the requester's from offset 28. -/
theorem arpForMe_mkarp_iff (b : Block) : b.mkarp.ArpForMe ↔
    b.params.numbers.arpMinLen ≤ b.len.toNat ∧ b.byte 12 = 0x08 ∧ b.byte 13 = 0x06 ∧ b.MyIpAt 28 := by
  simp [Block.ArpForMe, Block.MyIpAt, Block.mkarp, Block.byte, read_mkarpBuffer]

/-- `MKECHO` keeps what `ISIPME` reads but the destination address, now the requester's from offset 26. -/
theorem ipForMe_mkecho_iff (b : Block) : b.mkecho.IpForMe ↔
    b.params.numbers.ipMinLen ≤ b.len.toNat ∧ b.byte 12 = 0x08 ∧ b.byte 13 = 0x00 ∧ b.byte 14 = 0x45 ∧ b.MyIpAt 26 := by
  simp [Block.IpForMe, Block.MyIpAt, Block.mkecho, Block.byte, read_mkechoBuffer, read_mkechoFields]

/-- The type of an echo reply is 0. -/
theorem byte_mkecho_type (b : Block) : b.mkecho.byte 34 = 0x00 := by
  simp [Block.mkecho, Block.byte, read_mkechoBuffer]

theorem not_echoRequest_mkecho (b : Block) : ¬ b.mkecho.EchoRequest := by
  simp [Block.EchoRequest, byte_mkecho_type]

/-- Settles O13: every other test is kept by the builder and held before, so the address decides. -/
theorem repliesReclassified : Obligations.RepliesReclassified := by
  refine fun s => ⟨fun ⟨hlen, h12, h13, _⟩ => ⟨_, exec_eq .mkarp s nofun, ?arp⟩,
    fun ⟨hlen, h12, h13, h14, _⟩ => ⟨_, exec_eq .mkecho s nofun, ?ip, not_echoRequest_mkecho s.block⟩⟩
  case arp => exact (arpForMe_mkarp_iff s.block).trans (by simp only [hlen, h12, h13, true_and])
  case ip => exact (ipForMe_mkecho_iff s.block).trans (by simp only [hlen, h12, h13, h14, true_and])

/-! ### The host while `PHASE = RUN` -/

/-- A breach of 20_memory.md R58 is refused (93 U4). -/
theorem performAction_refused {s : State} {a : Action} (hbusy : s.block.phase.busy = true)
    (ha : a.allowedWhileRunning = false) : performAction a s = .refused .hostActionWhileRunning := by
  simp only [performAction, hbusy, ha, Bool.not_false, Bool.and_self, if_true]

/-- `RD STATUS` is performed in every phase. -/
theorem performAction_rd_status (s : State) : performAction (.rd 0x01) s = .next (rdAction s 0x01) := by
  simp [performAction, Action.allowedWhileRunning]

/-- Bit 5 of `STATUS` is `BUSY` (10_state.md R25). -/
theorem statusByte_busy {b : Block} (hbusy : b.phase.busy = true) : b.statusByte.getLsbD 5 = true := by
  obtain ⟨-, -, -, -, hbit, -⟩ := statusBits b
  exact hbit.mpr ((Phase.busy_iff _).mp hbusy)

/-- Settles O44: of the host's actions only `RD STATUS` is allowed while `PHASE = RUN`. -/
theorem hostExclusionWhileRunning : Obligations.HostExclusionWhileRunning := by
  intro s a hbusy hnext
  rw [step_of_performs (.inl hnext)]
  constructor
  · rintro rfl
    exact ⟨performAction_rd_status _, statusByte_busy hbusy⟩
  · intro ha
    refine performAction_refused hbusy ?_
    obtain ⟨data, rfl⟩ | ⟨n, rfl⟩ | ⟨x, rfl⟩ | ⟨x, v, rfl⟩ | ⟨reg, v, rfl⟩ | ⟨reg, rfl, hreg⟩ := ha
    case inr.inr.inr.inr.inr => exact beq_false_of_ne hreg
    all_goals rfl

end Sys2Proof.Machine
end

section
/-! The frame table against the classifiers (30_encoding.md R78 to R82, R87; 43_poll.md R160): which class a frame
decodes to, what the four classes do as instructions, and what becomes of a dropped frame. -/

namespace Sys2Proof.Machine

/-! ### The class of a frame by its pattern -/

/-- A frame carries one frame type: offset 13 tells a resolution frame from an IP one (R81). -/
theorem not_arpForMe_and_ipForMe (b : Block) : ¬ (b.ArpForMe ∧ b.IpForMe) := by
  rintro ⟨⟨-, -, harp, -⟩, ⟨-, -, hip, -⟩⟩
  exact absurd (harp.symm.trans hip) (by decide)

/-- The dispatch of R160 with its tests as propositions. -/
theorem classify_eq_ite (b : Block) : b.classify =
    if b.ArpForMe then .arp else if b.IpForMe then if b.EchoRequest then .echo else .ipOther else .notMe := by
  simp only [Block.classify, Block.isArp_eq, Block.isIpMe_eq, Block.isEcho_eq, Bool.not_eq_true', decide_eq_true_iff,
    decide_eq_false_iff_not, ite_not]

theorem classify_eq_arp_iff (b : Block) : b.classify = .arp ↔ b.ArpForMe := by
  rw [classify_eq_ite]
  split_ifs with harp
  case pos => exact iff_of_true rfl harp
  all_goals exact iff_of_false nofun harp

theorem classify_eq_echo_iff (b : Block) : b.classify = .echo ↔ b.IpForMe ∧ b.EchoRequest := by
  rw [classify_eq_ite]
  split_ifs with harp hip hecho
  · exact iff_of_false nofun fun h => not_arpForMe_and_ipForMe b ⟨harp, h.1⟩
  · exact iff_of_true rfl ⟨hip, hecho⟩
  · exact iff_of_false nofun fun h => hecho h.2
  · exact iff_of_false nofun fun h => hip h.1

theorem classify_eq_ipOther_iff (b : Block) : b.classify = .ipOther ↔ b.IpForMe ∧ ¬ b.EchoRequest := by
  rw [classify_eq_ite]
  split_ifs with harp hip hecho
  · exact iff_of_false nofun fun h => not_arpForMe_and_ipForMe b ⟨harp, h.1⟩
  · exact iff_of_false nofun fun h => h.2 hecho
  · exact iff_of_true rfl ⟨hip, hecho⟩
  · exact iff_of_false nofun fun h => hip h.1

theorem classify_eq_notMe_iff (b : Block) : b.classify = .notMe ↔ ¬ b.ArpForMe ∧ ¬ b.IpForMe := by
  rw [classify_eq_ite]
  split_ifs with harp hip hecho
  · exact iff_of_false nofun fun h => h.1 harp
  · exact iff_of_false nofun fun h => h.2 hip
  · exact iff_of_false nofun fun h => h.2 hip
  · exact iff_of_true rfl ⟨harp, hip⟩

theorem FrameClass.instr_inj {c d : FrameClass} : c.instr = d.instr ↔ c = d := by
  cases c <;> cases d <;> decide

/-- A frame decodes to a class exactly when the dispatch gives it that class. -/
theorem fetchFrame_eq_instr_iff (b : Block) (c : FrameClass) : b.fetchFrame = c.instr ↔ b.classify = c := by
  rw [fetchFrame_eq, FrameClass.instr_inj]

/-- Settles O20: the decoder and the dispatch agree, and each class of the dispatch has its pattern. -/
theorem frameDecodesByPattern : Obligations.FrameDecodesByPattern := fun b =>
  ⟨(fetchFrame_eq_instr_iff b .arp).trans (classify_eq_arp_iff b),
    (fetchFrame_eq_instr_iff b .echo).trans (classify_eq_echo_iff b),
    (fetchFrame_eq_instr_iff b .ipOther).trans (classify_eq_ipOther_iff b),
    (fetchFrame_eq_instr_iff b .notMe).trans (classify_eq_notMe_iff b), not_arpForMe_and_ipForMe b⟩

/-! ### The four classes as instructions -/

theorem fetchFrame_ne_update (b : Block) : b.fetchFrame ≠ .update := by
  rw [fetchFrame_eq]
  cases b.classify <;> decide

/-- The frame in the buffer is executed as the arm of R160 for its class. -/
theorem exec_fetchFrame (s : State) :
    exec s.block.fetchFrame s = .next (s.onBlock fun b => b.answer b.classify) := by
  rw [exec_eq _ _ (fun h => absurd h (fetchFrame_ne_update s.block)), State.onBlock, effect_fetchFrame]
  rfl

/-- Settles O21: both are the arm of R160 for the class of the frame. -/
theorem stepRunsTheFrameRow : Obligations.StepRunsTheFrameRow := fun s => (exec_fetchFrame s).symm

/-- A verdict set after an operation of the block. -/
theorem onBlock_setVerdict (s : State) (f : Block → Block) (c : FrameClass) (send : Bool) :
    s.onBlock (fun b => (f b).setVerdict c send) =
      { s.onBlock f with block := { (s.onBlock f).block with cls := c, send := send } } := rfl

/-- Settles O22: each class is executed as its effect, an arm of `Block.answer`. -/
theorem frameRowsAct : Obligations.FrameRowsAct := by
  intro s
  refine ⟨⟨_, exec_eq .mkarp s nofun, ?arp⟩, ⟨_, exec_eq .mkecho s nofun, ?echo⟩,
    exec_eq .frameIpOther s nofun, exec_eq .frameNotMe s nofun⟩
  case arp => exact (exec_eq .frameArp s nofun).trans (congrArg _ (onBlock_setVerdict s Block.mkarp .arp true))
  case echo => exact (exec_eq .frameEcho s nofun).trans (congrArg _ (onBlock_setVerdict s Block.mkecho .echo true))

/-! ### A dropped frame -/

/-- The `STEP` of a running `UPDATE` answers the frame in the buffer, and `tx` or `rx` is next (R165). -/
theorem step_frame {s : State} (hturn : s.blockTurn = true) (hphase : s.block.phase = .run .step) :
    step s = .next ((s.taken.onBlock fun b => b.answer b.classify).onBlock Block.afterStep) := by
  rw [← State.block_taken] at hphase
  rw [step_of_blockTurn hturn]
  simp only [blockStep, hphase, frameStep, exec_fetchFrame]

/-- `rx` on an empty queue ends the loop (R165, R181), with the latch clear in IDLE. -/
theorem step_rx_of_queue_empty {s : State} (hturn : s.blockTurn = true) (hphase : s.block.phase = .run .rx)
    (hqueue : s.host.queue = []) (hlatch : s.block.evtLatch = false) :
    step s = .next ((s.taken.onBlock fun b => (b.setLen 0).setPhase .idle).emit (.rx 0)) := by
  have hafter : s.taken.block.afterRx [] = (s.taken.block.setLen 0).setPhase .idle := by
    simp [Block.afterRx, Block.endUpdate, hlatch]
  rw [step_of_blockTurn hturn]
  simp only [blockStep, rxStep, State.block_taken, State.queue_taken, hphase, hqueue, State.onBlock] at hafter ⊢
  rw [hafter]

/-- A class that is dropped leaves the buffer, no reply and nothing to send (R160). -/
theorem answer_of_dropped (b : Block) {c : FrameClass} (hc : c = .notMe ∨ c = .ipOther) :
    b.answer c = { b with rlen := 0, cls := c, send := false } := by
  obtain rfl | rfl := hc <;> rfl

/-- The `STEP` of a running `UPDATE` on a frame that is dropped: the next `rx` follows. -/
theorem step_frame_of_dropped {s : State} (hturn : s.blockTurn = true) (hphase : s.block.phase = .run .step)
    (hdrop : s.block.classify = .notMe ∨ s.block.classify = .ipOther) :
    step s = .next { s.taken with block :=
      { s.block with rlen := 0, cls := s.block.classify, send := false, phase := .run .rx } } := by
  rw [step_frame hturn hphase, State.onBlock, State.onBlock, State.block_taken, answer_of_dropped _ hdrop]
  rfl

/-- Settles O39: the class is the dispatch's, the `STEP` drops the frame, and the `rx` after it ends the loop. -/
theorem droppedFramesSendNothing : Obligations.DroppedFramesSendNothing := by
  intro s hpending hphase hqueue hlatch harp hecho
  have hother : s.block.classify = .ipOther ↔ s.block.IpForMe :=
    (classify_eq_ipOther_iff s.block).trans (and_iff_left_of_imp fun hip he => hecho ⟨hip, he⟩)
  have hnotMe : s.block.classify = .notMe ↔ ¬ s.block.IpForMe :=
    (classify_eq_notMe_iff s.block).trans (and_iff_right harp)
  have hdrop : s.block.classify = .notMe ∨ s.block.classify = .ipOther := by
    rw [hother, hnotMe]
    exact (em _).symm
  refine ⟨s.block.classify, hother, hnotMe, ?_⟩
  obtain ⟨hturn, htaken⟩ := turn_of_no_input hpending
  rw [run_step (step_frame_of_dropped hturn hphase hdrop), htaken]
  obtain ⟨hturn', htaken'⟩ := turn_of_no_input (s := { s with block :=
    { s.block with rlen := 0, cls := s.block.classify, send := false, phase := .run .rx } }) hpending
  rw [run_step (step_rx_of_queue_empty hturn' rfl hqueue hlatch), htaken']
  rfl

end Sys2Proof.Machine
end

section
/-! The decoder and the encoder (30_encoding.md R84, R85, R87): command bytes, frame words, and a word placed to be run.
A frame word is read through `frameBlock`, the block that holds its bytes, so that the facts about the frame in the
buffer hold of it. -/

namespace Sys2Proof.Machine

/-! ### Commands -/

/-- An instruction with a code is decoded from it (R84). -/
theorem decodeCommand_of_encodeCommand {i : Instr} {c : Byte} (h : encodeCommand i = some c) :
    decodeCommand c = some i := by
  cases i
  case frameArp | frameEcho | frameIpOther | frameNotMe => cases h
  all_goals
    obtain rfl := Option.some.inj h
    rfl

/-- R84 both ways: the codes of the decoder and of the encoder are one table. -/
theorem decodeCommand_eq_some_iff (c : Byte) (i : Instr) : decodeCommand c = some i ↔ encodeCommand i = some c := by
  refine ⟨fun h => ?_, decodeCommand_of_encodeCommand⟩
  unfold decodeCommand at h
  split at h
  case h_9 => cases h
  all_goals
    next hcode =>
      obtain rfl := Option.some.inj h
      exact congrArg some (BitVec.eq_of_toNat_eq hcode.symm)

/-- The codes 0x00 and 0x09 to 0xFF are reserved (R85). -/
theorem decodeCommand_reserved {c : Byte} (h : c = 0x00 ∨ 0x09 ≤ c.toNat) : decodeCommand c = none := by
  rw [← BitVec.toNat_inj] at h
  unfold decodeCommand
  split
  case h_9 => rfl
  all_goals
    next hcode => simp [hcode] at h

/-- Settles O30: the byte is its own command code, and it decodes to nothing. -/
theorem reservedCodeRaisesErr : Obligations.ReservedCodeRaisesErr := by
  intro s code hperf hidle hcode
  rw [step_wr_cmd hperf hidle]
  simp only [commandAction, commandCode_setWidth, decodeCommand_reserved hcode]
  rfl

/-- The word of an instruction that has a code is that code, and decodes to it. -/
theorem decode_encodeWith_of_encodeCommand (p : Params) (fill : Nat → Byte) {i : Instr} {c : Byte}
    (h : encodeCommand i = some c) : decode p (encodeWith p fill i) = some i := by
  simp only [encodeWith, h, decode, decodeCommand_of_encodeCommand h]

theorem isSome_encodeCommand (i : Instr) : (encodeCommand i).isSome = i.isCommand := by
  cases i <;> rfl

/-! ### Frame words -/

/-- A block with the given parameters whose buffer holds a frame, delivered after reset. -/
def frameBlock (p : Params) (bytes : List Byte) : Block := (Block.resetWith p []).deliver bytes

@[simp] theorem params_frameBlock (p : Params) (bytes : List Byte) : (frameBlock p bytes).params = p := rfl

/-- The buffer holds the frame, and 0 beyond it, as the decoder reads a frame word. -/
theorem byte_frameBlock (p : Params) (bytes : List Byte) (a : Nat) : (frameBlock p bytes).byte a = bytes.getD a 0 := by
  rw [Block.byte, frameBlock, read_deliver]
  split_ifs with ha
  · rfl
  · exact (List.getD_eq_default _ _ (Nat.le_of_not_lt ha)).symm

theorem len_frameBlock {p : Params} {bytes : List Byte} (h : bytes.length = 42) : (frameBlock p bytes).len = 42 := by
  simp [frameBlock, Block.deliver, h]

/-- A frame word of 42 bytes decodes to the class of the frame in the buffer. -/
theorem decode_frame_eq_fetchFrame (p : Params) {bytes : List Byte} (h : bytes.length = 42) :
    decode p (.frame 42 bytes) = some (frameBlock p bytes).fetchFrame := by
  rw [decode, Block.fetchFrame, funext (byte_frameBlock p bytes), len_frameBlock h]
  rfl

/-! ### The frames the encoder writes -/

/-- The same for the frame of a row of the frame table, its don't-care bytes taken from `fill`. -/
def rowBlock (p : Params) (r : FrameRow) (fill : Nat → Byte) : Block := frameBlock p (r.frameBytes p.myip fill)

@[simp] theorem params_rowBlock (p : Params) (r : FrameRow) (fill : Nat → Byte) : (rowBlock p r fill).params = p := rfl

@[simp] theorem len_rowBlock (p : Params) (r : FrameRow) (fill : Nat → Byte) : (rowBlock p r fill).len = 42 :=
  len_frameBlock (Laws.EncodingForm.row_length r p.myip fill)

theorem byte_rowBlock (p : Params) (r : FrameRow) (fill : Nat → Byte) {a : Nat} (ha : a < 42) :
    (rowBlock p r fill).byte a = r.byteAt p.myip fill a := by
  simp [rowBlock, byte_frameBlock, FrameRow.frameBytes, List.getD, ha]

/-- The word of a frame class decodes to the class of its row's frame. -/
theorem decode_encodeWith_of_row (p : Params) (fill : Nat → Byte) {i : Instr} {r : FrameRow}
    (hcode : encodeCommand i = none) (hrow : (frameRows p.numbers).find? (fun r => r.instr == i) = some r) :
    decode p (encodeWith p fill i) = some (rowBlock p r fill).fetchFrame := by
  simp only [encodeWith, hcode, hrow]
  exact decode_frame_eq_fetchFrame p (Laws.EncodingForm.row_length r p.myip fill)

/-- Every filling of the `ARP` row is a resolution request for this device (R78). -/
theorem decode_encodeWith_frameArp {p : Params} (hgate : p.numbers.arpMinLen ≤ 42) (fill : Nat → Byte) :
    decode p (encodeWith p fill .frameArp) = some .frameArp := by
  obtain ⟨harp, -⟩ := frameDecodesByPattern (rowBlock p _ fill)
  refine (decode_encodeWith_of_row p fill rfl rfl).trans (congrArg some (harp.mpr ?_))
  simp [Block.ArpForMe, Block.MyIpAt, byte_rowBlock, FrameRow.byteAt, ipBytes, hgate]

/-- Every filling of the `ECHO` row is an echo request for this device (R80). -/
theorem decode_encodeWith_frameEcho {p : Params} (hgate : p.numbers.ipMinLen ≤ 42) (fill : Nat → Byte) :
    decode p (encodeWith p fill .frameEcho) = some .frameEcho := by
  obtain ⟨-, hecho, -⟩ := frameDecodesByPattern (rowBlock p _ fill)
  refine (decode_encodeWith_of_row p fill rfl rfl).trans (congrArg some (hecho.mpr ?_))
  simp [Block.IpForMe, Block.EchoRequest, Block.MyIpAt, byte_rowBlock, FrameRow.byteAt, ipBytes, hgate]

/-- A filling of the `IP_OTHER` row is an IP packet for this device (R79), and no echo request unless
it is filled as one. -/
theorem decode_encodeWith_frameIpOther {p : Params} (hgate : p.numbers.ipMinLen ≤ 42) {fill : Nat → Byte}
    (hfill : ¬ (fill 23 = 0x01 ∧ fill 34 = 0x08)) :
    decode p (encodeWith p fill .frameIpOther) = some .frameIpOther := by
  obtain ⟨-, -, hother, -⟩ := frameDecodesByPattern (rowBlock p _ fill)
  refine (decode_encodeWith_of_row p fill rfl rfl).trans (congrArg some (hother.mpr ?_))
  simpa [Block.IpForMe, Block.EchoRequest, Block.MyIpAt, byte_rowBlock, FrameRow.byteAt, ipBytes, hgate] using hfill

/-- A frame of zeros is of neither frame type (R82). -/
theorem decode_encode_frameNotMe (p : Params) : decode p (encode p .frameNotMe) = some .frameNotMe := by
  obtain ⟨-, -, -, hnotMe, -⟩ := frameDecodesByPattern (rowBlock p _ fun _ => 0)
  refine (decode_encodeWith_of_row p _ rfl rfl).trans (congrArg some (hnotMe.mpr ?_))
  simp [Block.ArpForMe, Block.IpForMe, byte_rowBlock, FrameRow.byteAt]

/-- Decoding the word of any instruction gives it back, for gates a frame of 42 bytes passes. -/
theorem decode_encode {p : Params} (harp : p.numbers.arpMinLen ≤ 42) (hip : p.numbers.ipMinLen ≤ 42) (i : Instr) :
    decode p (encode p i) = some i := by
  cases i with
  | frameArp => exact decode_encodeWith_frameArp harp _
  | frameEcho => exact decode_encodeWith_frameEcho hip _
  | frameIpOther => exact decode_encodeWith_frameIpOther hip (by decide)
  | frameNotMe => exact decode_encode_frameNotMe p
  | _ => exact decode_encodeWith_of_encodeCommand p _ rfl

/-- Settles O24: commands by the one table of codes, frames by the pattern each row's frame has. -/
theorem decodeEncodeAgree : Obligations.DecodeEncodeAgree := by
  refine ⟨fun p i hi => ?_, decodeCommand_eq_some_iff, fun p harp hip => ⟨decode_encode harp hip,
    decode_encodeWith_frameArp harp, decode_encodeWith_frameEcho hip, fun _ => decode_encodeWith_frameIpOther hip⟩⟩
  obtain ⟨c, hc⟩ := Option.isSome_iff_exists.mp ((isSome_encodeCommand i).trans hi)
  exact decode_encodeWith_of_encodeCommand p _ hc

/-! ### Table words and words placed to be run -/

/-- Settles O25: the ten words are evaluated. -/
theorem wordsDecode : Obligations.WordsDecode := by
  refine ⟨?_, ?_, ?_, ?_, ?_, ?_, ?_, ?_, ?_, ?_⟩ <;> decide +kernel

/-- Settles O28: the input that was put first is the write of the word to `CMD`, and taking it restores the host. -/
theorem placedCommandIsRunNext : Obligations.PlacedCommandIsRunNext := by
  intro s w i _ hdec
  have hcode : decodeCommand (wordByte 8 w 0) = some i := hdec
  exact ⟨(s.withFetchWord 8 w).popInput, stepRunsTheDecodedCommand _ _ i (.inr ⟨rfl, rfl⟩) rfl hcode, rfl, rfl⟩

/-- The frame is long enough for both length gates (R87). -/
def Block.PassesGates (b : Block) : Prop :=
  b.params.numbers.arpMinLen ≤ b.len.toNat ∧ b.params.numbers.ipMinLen ≤ b.len.toNat

/-- Past the gates, a frame's class depends on `MYIP` and the first 42 bytes alone (R78 to R82). -/
theorem fetchFrame_congr {b b' : Block} (hgates : b.PassesGates) (hgates' : b'.PassesGates)
    (hip : b.params.myip = b'.params.myip) (hbyte : ∀ a < 42, b.byte a = b'.byte a) :
    b.fetchFrame = b'.fetchFrame := by
  have hisArp : b.isArp = b'.isArp := by
    simp (disch := decide) only [Block.isArp, Block.isMyIpAt, hip, hbyte, hgates.1, hgates'.1]
  have hisIpMe : b.isIpMe = b'.isIpMe := by
    simp (disch := decide) only [Block.isIpMe, Block.isMyIpAt, hip, hbyte, hgates.2, hgates'.2]
  have hisEcho : b.isEcho = b'.isEcho := by
    simp (disch := decide) only [Block.isEcho, hbyte]
  rw [fetchFrame_eq, fetchFrame_eq, Block.classify, hisArp, hisIpMe, hisEcho, Block.classify]

theorem length_wordFrame (nbits w : Nat) : (wordFrame nbits w).length = 42 := by simp [wordFrame]

theorem getD_wordFrame (nbits w : Nat) {a : Nat} (ha : a < 42) : (wordFrame nbits w).getD a 0 = wordByte nbits w a := by
  simp [wordFrame, List.getD, ha]

/-- The block into which the frame of a word was delivered, its `MYIP` the address the frame carries (log entry 14). -/
def Block.withFrameWord (b : Block) (nbits w : Nat) : Block :=
  ((b.withMyIp (frameTargetIp (wordFrame nbits w))).deliver (wordFrame nbits w)).setPhase (.run .step)

theorem len_withFrameWord (b : Block) (nbits w : Nat) : (b.withFrameWord nbits w).len = 42 := by
  simp [Block.withFrameWord, Block.deliver, length_wordFrame]

theorem byte_withFrameWord (b : Block) (nbits w a : Nat) :
    (b.withFrameWord nbits w).byte a = if a < 42 then wordByte nbits w a else b.byte a := by
  rw [Block.byte, Block.withFrameWord, Block.fb_setPhase, read_deliver, length_wordFrame]
  split_ifs with ha
  · exact getD_wordFrame nbits w ha
  · rfl

/-- A word longer than a byte, read with R6's gates, decodes to the class its frame has in any block with gates of 42 or
less. -/
theorem decodeTableWord_eq_fetchFrame {b : Block} {nbits : Nat} (w : Nat) (hbits : 8 < nbits)
    (harp : b.params.numbers.arpMinLen ≤ 42) (hip : b.params.numbers.ipMinLen ≤ 42) :
    decodeTableWord nbits w = some (b.withFrameWord nbits w).fetchFrame := by
  rw [decodeTableWord, if_neg (Nat.not_le.mpr hbits), decode_frame_eq_fetchFrame _ (length_wordFrame nbits w)]
  refine congrArg some (fetchFrame_congr ?word ?placed rfl fun a ha => ?byte)
  case word =>
    rw [Block.PassesGates, len_frameBlock (length_wordFrame nbits w)]
    exact (by decide : Numbers.r6.arpMinLen ≤ 42 ∧ Numbers.r6.ipMinLen ≤ 42)
  case placed =>
    rw [Block.PassesGates, len_withFrameWord]
    exact ⟨harp, hip⟩
  case byte => rw [byte_frameBlock, byte_withFrameWord, if_pos ha, getD_wordFrame nbits w ha]

/-- After a word longer than a byte was placed, the `STEP` of a running `UPDATE` is next, on the block that holds its
frame; the tick is used up by it. -/
theorem withFetchWord_frame (s : State) {nbits : Nat} (w : Nat) (hbits : 8 < nbits) :
    (s.withFetchWord nbits w).blockTurn = true ∧ (s.withFetchWord nbits w).block.phase = .run .step ∧
      (s.withFetchWord nbits w).taken.block = s.block.withFrameWord nbits w ∧
      (s.withFetchWord nbits w).taken.host = s.host := by
  rw [State.withFetchWord, placeWord, if_neg (Nat.not_le.mpr hbits)]
  exact ⟨rfl, rfl, rfl, rfl⟩

/-- `tx` is next if there is a reply to send, else `rx` (R165). -/
theorem onBlock_afterStep (s : State) : s.onBlock Block.afterStep =
    { s with block := { s.block with phase := if s.block.send = true then .run .tx else .run .rx } } := by
  rw [State.onBlock, Block.afterStep, Block.setPhase, apply_ite Phase.run]

/-- Settles O29: the tick that was put first lets the block do the `STEP` of a running `UPDATE` on the frame placed. -/
theorem placedFrameIsRunNext : Obligations.PlacedFrameIsRunNext := by
  intro s nbits w hbits harp hip
  obtain ⟨hturn, hphase, hblock, hhost⟩ := withFetchWord_frame s w hbits
  have hstep := step_frame hturn hphase
  rw [onBlock_afterStep] at hstep
  generalize (s.withFetchWord nbits w).taken = t at hstep hblock hhost
  have hdecode := decodeTableWord_eq_fetchFrame w hbits harp hip
  rw [← hblock] at hdecode
  refine ⟨_, t, _, hdecode, exec_fetchFrame t, ?block, ?params, hhost, fun a ha => ?placed, fun a ha => ?kept, hstep⟩
  case block => rw [hblock, ← len_withFrameWord s.block nbits w]; rfl
  case params => rw [hblock]; rfl
  case placed => rw [hblock, byte_withFrameWord, if_pos ha]
  case kept => rw [hblock, byte_withFrameWord, if_neg (Nat.not_lt.mpr ha)]

end Sys2Proof.Machine
end

section
/-! The classifier commands (40_classify.md R100 to R102). The Boolean test each puts into `MATCH` is its rule's
conjunction by `Block.isArp_eq`, `Block.isIpMe_eq` and `Block.isEcho_eq`. -/

namespace Sys2Proof.Machine

/-- The comparison with `MYIP` (30_encoding.md R77) by index. -/
theorem Block.myIpAt_iff_forall_byte (b : Block) (a : Nat) :
    b.MyIpAt a ↔ ∀ k < 4, b.byte (a + k) = (ipBytes b.params.myip).getD k 0 := by
  refine ⟨fun ⟨h0, h1, h2, h3⟩ k hk => ?_, fun h => ⟨h 0 ?_, h 1 ?_, h 2 ?_, h 3 ?_⟩⟩
  · interval_cases k
    exacts [h0, h1, h2, h3]
  all_goals decide

/-- Settles O1: `MATCH` takes `isArp`, and the gate of R6's numbers is 14. -/
theorem isarpSetsMatchOnly : Obligations.IsarpSetsMatchOnly := by
  refine ⟨rfl, fun s => ⟨?next, fun hr6 => ?gate⟩⟩
  case next => rw [← Block.isArp_eq]; rfl
  case gate => rw [Block.ArpForMe, Block.myIpAt_iff_forall_byte, hr6, Numbers.r6]

/-- Settles O2: `MATCH` takes `isIpMe`, and the gate of R6's numbers is 34. -/
theorem isipmeSetsMatchOnly : Obligations.IsipmeSetsMatchOnly := by
  refine ⟨rfl, fun s => ⟨?next, fun hr6 => ?gate⟩⟩
  case next => rw [← Block.isIpMe_eq]; rfl
  case gate => rw [Block.IpForMe, Block.myIpAt_iff_forall_byte, hr6, Numbers.r6]

/-- Settles O3: `MATCH` takes `isEcho`, which has no gate. -/
theorem isechoSetsMatchOnly : Obligations.IsechoSetsMatchOnly := by
  refine ⟨rfl, fun s => ?next⟩
  case next => rw [← Block.isEcho_eq]; rfl

end Sys2Proof.Machine
end

section
/-! The reply builders (41_reply.md). What each field of the frame holds after `MKARP` (R120) and `MKECHO` (R125) is read
off `read_mkarpBuffer`, `read_mkechoBuffer` and `read_mkechoFields` once, as an equation of byte ranges; a second run of a
builder (R122, R129) chains these equations. -/

namespace Sys2Proof.Machine

/-! ### Ranges of the buffer -/

/-- Two ranges are equal when they agree byte by byte. -/
theorem Memory.readBytes_eq_readBytes_iff {m m' : Memory} {a a' n : Nat} :
    m.readBytes a n = m'.readBytes a' n ↔ ∀ k < n, m.read (a + k) = m'.read (a' + k) := by
  simp only [Memory.readBytes, List.map_inj_left, List.mem_range]

/-- The same for a range at the start of the buffer. -/
theorem Memory.readBytes_zero_eq_readBytes_iff {m m' : Memory} {a' n : Nat} :
    m.readBytes 0 n = m'.readBytes a' n ↔ ∀ k < n, m.read k = m'.read (a' + k) := by
  simp only [Memory.readBytes_eq_readBytes_iff, Nat.zero_add]

/-- A byte of a range that is known. -/
theorem Memory.read_of_readBytes_eq {m : Memory} {a n : Nat} {bytes : List Byte} (h : m.readBytes a n = bytes)
    {k : Nat} (hk : k < n) : m.read (a + k) = bytes.getD k 0 := by
  rw [← h, Memory.getD_readBytes _ _ _ _ hk]

/-- To set a byte of a range that was read is to read the range after a write. -/
theorem Memory.set_readBytes (m : Memory) (a n j : Nat) (v : Byte) :
    (m.readBytes a n).set j v = (m.write (a + j) v).readBytes a n := by
  refine List.ext_getElem? fun i => ?_
  rw [List.getElem?_set, Memory.length_readBytes, Memory.getElem?_readBytes, Memory.getElem?_readBytes,
    Memory.read_write]
  by_cases hij : j = i
  · rw [if_pos hij, hij, if_pos rfl]
  · rw [if_neg hij, if_neg (show ¬ a + i = a + j by omega)]

/-! ### A range that holds its own checksum -/

/-- A range verifies whose word `j` holds the checksum of the range with that word zeroed (42_checksum.md R147). -/
theorem cksum_eq_zero_of_field {bytes : List Byte} {seed j : Nat} (hj : 2 * j + 1 < bytes.length)
    (hfield : (bytes.getD (2 * j) 0).toNat * 256 + (bytes.getD (2 * j + 1) 0).toNat =
      cksum ((bytes.set (2 * j) 0).set (2 * j + 1) 0) seed) : cksum bytes seed = 0 := by
  have hset := wsum_set_pair bytes j 0 0 hj
  rw [show (0 : Byte).toNat = 0 from rfl] at hset
  rw [cksum, not16, cksumRaw] at hfield
  rw [cksum_eq_zero]
  generalize wsum ((bytes.set (2 * j) 0).set (2 * j + 1) 0) = zeroed at hset hfield
  have hlt := fold16_lt (seed + zeroed)
  have hmod := fold16_mod (seed + zeroed)
  have hzero := fold16_eq_zero (seed + zeroed)
  omega

/-! ### `MKARP` -/

@[simp] theorem Block.fb_mkarp (b : Block) : b.mkarp.fb = mkarpBuffer b.params b.fb := rfl

/-- The reply goes to the requester. -/
theorem readBytes_mkarp_ethDst (b : Block) : b.mkarp.fb.readBytes 0 6 = b.fb.readBytes 6 6 := by
  refine Memory.readBytes_zero_eq_readBytes_iff.mpr fun k hk => ?_
  rw [Block.fb_mkarp, read_mkarpBuffer, if_pos hk, Nat.add_comm]

theorem readBytes_mkarp_ethSrc (b : Block) : b.mkarp.fb.readBytes 6 6 = macBytes b.params.mymac := by
  refine Memory.readBytes_eq_of _ _ _ _ (macBytes_length _) fun k hk => ?_
  simp (disch := omega) only [Block.fb_mkarp, read_mkarpBuffer, if_pos, if_neg, Nat.add_sub_cancel_left]

/-- "Reply", both bytes (92 D10). -/
theorem readBytes_mkarp_opcode (b : Block) : b.mkarp.fb.readBytes 20 2 = [0x00, 0x02] := by
  simp [Memory.readBytes, List.range_succ, read_mkarpBuffer]

theorem readBytes_mkarp_senderMac (b : Block) : b.mkarp.fb.readBytes 22 6 = macBytes b.params.mymac := by
  refine Memory.readBytes_eq_of _ _ _ _ (macBytes_length _) fun k hk => ?_
  simp (disch := omega) only [Block.fb_mkarp, read_mkarpBuffer, if_pos, if_neg, Nat.add_sub_cancel_left]

theorem readBytes_mkarp_senderIp (b : Block) : b.mkarp.fb.readBytes 28 4 = ipBytes b.params.myip := by
  refine Memory.readBytes_eq_of _ _ _ _ (ipBytes_length _) fun k hk => ?_
  simp (disch := omega) only [Block.fb_mkarp, read_mkarpBuffer, if_pos, if_neg, Nat.add_sub_cancel_left]

/-- The ten bytes of the target's two addresses are those of the old sender's. -/
theorem read_mkarp_target (b : Block) {k : Nat} (hk : k < 10) : b.mkarp.fb.read (32 + k) = b.fb.read (22 + k) := by
  simp (disch := omega) only [Block.fb_mkarp, read_mkarpBuffer, if_pos, if_neg]
  congr 1; omega

theorem readBytes_mkarp_targetMac (b : Block) : b.mkarp.fb.readBytes 32 6 = b.fb.readBytes 22 6 :=
  Memory.readBytes_eq_readBytes_iff.mpr fun _ hk => read_mkarp_target b (by omega)

theorem readBytes_mkarp_targetIp (b : Block) : b.mkarp.fb.readBytes 38 4 = b.fb.readBytes 28 4 := by
  refine Memory.readBytes_eq_readBytes_iff.mpr fun k hk => ?_
  simpa only [← Nat.add_assoc] using read_mkarp_target b (k := 6 + k) (by omega)

theorem byte_mkarp_kept (b : Block) {a : Nat} (ha : (12 ≤ a ∧ a ≤ 19) ∨ 42 ≤ a) : b.mkarp.byte a = b.byte a := by
  obtain ⟨hlo, hhi⟩ | ha := ha
  · rw [Block.byte, Block.fb_mkarp, read_mkarpBuffer]
    simp (disch := omega) only [if_pos, if_neg, Block.byte]
  · exact byte_mkarp_of_le b ha

/-- Settles O6: each field by its equation. -/
theorem mkarpBuildsTheReply : Obligations.MkarpBuildsTheReply :=
  ⟨rfl, fun s => ⟨_, exec_eq .mkarp s nofun, rfl, congrArg Numbers.arpReplyLen,
    Memory.readBytes_zero_eq_readBytes_iff.mp (readBytes_mkarp_ethDst s.block),
    fun _ => Memory.read_of_readBytes_eq (readBytes_mkarp_ethSrc s.block),
    Memory.read_of_readBytes_eq (k := 0) (readBytes_mkarp_opcode s.block) (by decide),
    Memory.read_of_readBytes_eq (k := 1) (readBytes_mkarp_opcode s.block) (by decide),
    congrArg beValue (readBytes_mkarp_opcode s.block),
    Memory.readBytes_eq_readBytes_iff.mp (readBytes_mkarp_targetMac s.block),
    Memory.readBytes_eq_readBytes_iff.mp (readBytes_mkarp_targetIp s.block),
    fun _ => Memory.read_of_readBytes_eq (readBytes_mkarp_senderMac s.block),
    fun _ => Memory.read_of_readBytes_eq (readBytes_mkarp_senderIp s.block), fun _ => byte_mkarp_kept s.block⟩⟩

/-- Settles O11: the second run copies to the destination fields what the first put into the source fields. -/
theorem mkarpTwice : Obligations.MkarpTwice := fun s =>
  ⟨_, _, exec_eq .mkarp s nofun, exec_eq .mkarp _ nofun,
    (readBytes_mkarp_ethDst s.block.mkarp).trans (readBytes_mkarp_ethSrc s.block),
    readBytes_mkarp_ethSrc s.block.mkarp, readBytes_mkarp_senderMac s.block.mkarp,
    (readBytes_mkarp_targetMac s.block.mkarp).trans (readBytes_mkarp_senderMac s.block),
    readBytes_mkarp_senderIp s.block.mkarp,
    (readBytes_mkarp_targetIp s.block.mkarp).trans (readBytes_mkarp_senderIp s.block),
    congrArg beValue (readBytes_mkarp_opcode s.block.mkarp), rfl, congrArg Numbers.arpReplyLen⟩

/-! ### `MKECHO` -/

@[simp] theorem Block.fb_mkecho (b : Block) : b.mkecho.fb = mkechoBuffer b.params b.fb := by
  rw [Block.mkecho_eq]

/-- `MKECHO` changes the buffer and `RLEN` only. -/
theorem Block.mkecho_frame (b : Block) : b.mkecho = { b with fb := b.mkecho.fb, rlen := b.len } := by
  rw [Block.fb_mkecho, Block.mkecho_eq]

/-- Outside the two checksums and the type, `MKECHO` leaves what its steps 1 and 2 wrote. -/
theorem read_mkecho_eq_fields (b : Block) {x : Nat} (hx : x < 24 ∨ (26 ≤ x ∧ x ≤ 33) ∨ x = 35 ∨ 38 ≤ x) :
    b.mkecho.fb.read x = (mkechoFields b.params b.fb).read x := by
  simp (disch := omega) only [Block.fb_mkecho, read_mkechoBuffer, if_neg]

/-- The reply goes to the requester. -/
theorem readBytes_mkecho_ethDst (b : Block) : b.mkecho.fb.readBytes 0 6 = b.fb.readBytes 6 6 := by
  refine Memory.readBytes_zero_eq_readBytes_iff.mpr fun k hk => ?_
  rw [read_mkecho_eq_fields b (by omega), read_mkechoFields, if_pos hk, Nat.add_comm]

theorem readBytes_mkecho_ethSrc (b : Block) : b.mkecho.fb.readBytes 6 6 = macBytes b.params.mymac := by
  refine Memory.readBytes_eq_of _ _ _ _ (macBytes_length _) fun k hk => ?_
  rw [read_mkecho_eq_fields b (by omega), read_mkechoFields]
  simp (disch := omega) only [if_pos, if_neg, Nat.add_sub_cancel_left]

theorem readBytes_mkecho_ipSrc (b : Block) : b.mkecho.fb.readBytes 26 4 = ipBytes b.params.myip := by
  refine Memory.readBytes_eq_of _ _ _ _ (ipBytes_length _) fun k hk => ?_
  rw [read_mkecho_eq_fields b (by omega), read_mkechoFields]
  simp (disch := omega) only [if_pos, if_neg, Nat.add_sub_cancel_left]

theorem readBytes_mkecho_ipDst (b : Block) : b.mkecho.fb.readBytes 30 4 = b.fb.readBytes 26 4 := by
  refine Memory.readBytes_eq_readBytes_iff.mpr fun k hk => ?_
  rw [read_mkecho_eq_fields b (by omega), read_mkechoFields]
  simp (disch := omega) only [if_pos, if_neg]
  congr 1; omega

/-- "Don't fragment", both bytes (92 D12). -/
theorem readBytes_mkecho_flags (b : Block) : b.mkecho.fb.readBytes 20 2 = [0x40, 0x00] := by
  simp [Memory.readBytes, List.range_succ, read_mkechoBuffer, read_mkechoFields]

theorem byte_mkecho_ttl (b : Block) : b.mkecho.byte 22 = b.params.numbers.replyTtl := by
  rw [Block.byte, read_mkecho_eq_fields b (by decide), read_mkechoFields]
  rfl

/-- The ICMP checksum field is repaired by the patch (42_checksum.md R150). -/
theorem memRead_mkecho_icmp (b : Block) : b.mkecho.fb.memRead 36 2 = fold16 (b.fb.memRead 36 2 + 0x0800) := by
  rw [← toNat_icmpField b.fb, ← toNat_icmpPatch]
  exact Memory.memRead_of_beBytes (by simp [read_mkechoBuffer]) (by simp [read_mkechoBuffer])

/-- With its checksum field zeroed again, the reply's header is the one that step 3 summed (R126). -/
theorem zeroed_header_mkecho (b : Block) :
    ((b.mkecho.fb.readBytes 14 20).set 10 0).set 11 0 = (mkechoFields b.params b.fb).readBytes 14 20 := by
  rw [Memory.set_readBytes, Memory.set_readBytes]
  refine Memory.readBytes_congr _ _ _ _ fun x hlo hhi => ?_
  rw [Memory.read_write, Memory.read_write]
  split_ifs with h25 h24
  · subst h25; simp [read_mkechoFields]
  · subst h24; simp [read_mkechoFields]
  · exact read_mkecho_eq_fields b (by omega)

/-- The header checksum is that of the header as it stands, its own field taken as zero (R126). -/
theorem memRead_mkecho_header (b : Block) :
    b.mkecho.fb.memRead 24 2 = cksum (((b.mkecho.fb.readBytes 14 20).set 10 0).set 11 0) 0 := by
  rw [zeroed_header_mkecho, ← toNat_cksum16]
  change _ = (mkechoHeaderSum b.params b.fb).toNat
  exact Memory.memRead_of_beBytes (by simp [read_mkechoBuffer]) (by simp [read_mkechoBuffer])

theorem byte_mkecho_kept (b : Block) {a : Nat} (ha : (12 ≤ a ∧ a ≤ 19) ∨ a = 23 ∨ a = 35 ∨ 38 ≤ a) :
    b.mkecho.byte a = b.byte a := by
  rw [Block.byte, read_mkecho_eq_fields b (by omega), read_mkechoFields]
  obtain ⟨hlo, hhi⟩ | rfl | rfl | ha := ha
  · simp (disch := omega) only [if_pos, if_neg, Block.byte]
  · rfl
  · rfl
  · simp (disch := omega) only [if_neg, Block.byte]

/-- Settles O7: each field by its equation, the two checksums by what `MKECHO` stores in them. -/
theorem mkechoBuildsTheReply : Obligations.MkechoBuildsTheReply :=
  ⟨rfl, fun s => ⟨_, exec_eq .mkecho s nofun, congrArg (State.mk · s.host) s.block.mkecho_frame,
    Memory.readBytes_zero_eq_readBytes_iff.mp (readBytes_mkecho_ethDst s.block),
    fun _ => Memory.read_of_readBytes_eq (readBytes_mkecho_ethSrc s.block),
    Memory.readBytes_eq_readBytes_iff.mp (readBytes_mkecho_ipDst s.block),
    fun _ => Memory.read_of_readBytes_eq (readBytes_mkecho_ipSrc s.block),
    Memory.read_of_readBytes_eq (k := 0) (readBytes_mkecho_flags s.block) (by decide),
    Memory.read_of_readBytes_eq (k := 1) (readBytes_mkecho_flags s.block) (by decide), byte_mkecho_ttl s.block,
    fun hr6 => (byte_mkecho_ttl s.block).trans (congrArg Numbers.replyTtl hr6), memRead_mkecho_header s.block,
    byte_mkecho_type s.block, memRead_mkecho_icmp s.block, fun _ => byte_mkecho_kept s.block⟩⟩

/-- The header of the reply verifies (R127). -/
theorem cksum_header_mkecho (b : Block) : cksum (b.mkecho.fb.readBytes 14 20) 0 = 0 := by
  refine cksum_eq_zero_of_field (j := 5) (by simp) ?_
  rw [Memory.getD_readBytes _ _ _ _ (by decide), Memory.getD_readBytes _ _ _ _ (by decide)]
  exact (Memory.memRead_two _ 24).symm.trans (memRead_mkecho_header b)

/-- Settles O8: the header holds its own checksum, and the fields are those of R125. -/
theorem mkechoHeaderVerifies : Obligations.MkechoHeaderVerifies := fun s =>
  ⟨_, exec_eq .mkecho s nofun, byte_mkecho_type s.block, cksum_header_mkecho s.block, byte_mkecho_ttl s.block,
    fun hr6 => (byte_mkecho_ttl s.block).trans (congrArg Numbers.replyTtl hr6),
    congrArg beValue (readBytes_mkecho_flags s.block), readBytes_mkecho_ethDst s.block,
    readBytes_mkecho_ethSrc s.block, readBytes_mkecho_ipSrc s.block, readBytes_mkecho_ipDst s.block, rfl⟩

/-- Settles O12: the second run copies to the destination fields what the first put into the source fields, and patches
the field that the first patched. -/
theorem mkechoTwice : Obligations.MkechoTwice := fun s =>
  ⟨_, _, exec_eq .mkecho s nofun, exec_eq .mkecho _ nofun,
    (readBytes_mkecho_ethDst s.block.mkecho).trans (readBytes_mkecho_ethSrc s.block),
    readBytes_mkecho_ethSrc s.block.mkecho, readBytes_mkecho_ipSrc s.block.mkecho,
    (readBytes_mkecho_ipDst s.block.mkecho).trans (readBytes_mkecho_ipSrc s.block),
    cksum_header_mkecho s.block.mkecho, byte_mkecho_type s.block.mkecho,
    (memRead_mkecho_icmp s.block.mkecho).trans (by rw [memRead_mkecho_icmp s.block])⟩

end Sys2Proof.Machine
end

section
/-! The checksum unit (42_checksum.md). What a checksum is follows from the total it folds, by the three facts of R147
about `fold16`; that total is read off the bytes by index (R140), and off an ICMP message as its type, its checksum
field and the rest (R151). -/

namespace Sys2Proof.Machine

/-! ### The word sum, by index -/

@[simp] theorem toNat_zero_byte : (0 : Byte).toNat = 0 := rfl

/-- Word `k` of a sequence, the earlier byte the more significant (R140). -/
def wordAt (s : List Byte) (k : Nat) : Nat := (s.getD (2 * k) 0).toNat * 256 + (s.getD (2 * k + 1) 0).toNat

/-- What a lone last byte counts (R140). -/
def loneByte (s : List Byte) : Nat := if s.length % 2 = 1 then (s.getD (s.length - 1) 0).toNat * 256 else 0

theorem wordAt_cons_cons_succ (x y : Byte) (s : List Byte) (k : Nat) : wordAt (x :: y :: s) (k + 1) = wordAt s k := rfl

theorem loneByte_cons_cons (x y : Byte) (s : List Byte) : loneByte (x :: y :: s) = loneByte s := by
  cases s with
  | nil => simp [loneByte]
  | cons z s =>
    have hparity : (x :: y :: z :: s).length % 2 = (z :: s).length % 2 := Nat.add_mod_right _ 2
    rw [loneByte, hparity]
    rfl

theorem wsum_eq_sum_words (s : List Byte) :
    wsum s = ((List.range (s.length / 2)).map (wordAt s)).sum + loneByte s := by
  induction s using wsum.induct with
  | case1 => rfl
  | case2 x => simp [wsum, loneByte]
  | case3 x y rest ih =>
    have hhalf : (x :: y :: rest).length / 2 = rest.length / 2 + 1 := Nat.add_div_right _ Nat.two_pos
    have htail : wordAt (x :: y :: rest) ∘ Nat.succ = wordAt rest := funext (wordAt_cons_cons_succ x y rest)
    rw [hhalf, List.range_succ_eq_map, List.map_cons, List.map_map, htail, List.sum_cons, loneByte_cons_cons, wsum, ih,
      ← Nat.add_assoc]
    rfl

theorem wordAt_readBytes (m : Memory) (a : Nat) {n k : Nat} (hk : 2 * k + 1 < n) :
    wordAt (m.readBytes a n) k = (m.read (a + 2 * k)).toNat * 256 + (m.read (a + (2 * k + 1))).toNat := by
  rw [wordAt, Memory.getD_readBytes _ _ _ _ (by omega), Memory.getD_readBytes _ _ _ _ hk]

theorem loneByte_readBytes (m : Memory) (a n : Nat) :
    loneByte (m.readBytes a n) = if n % 2 = 1 then (m.read (a + (n - 1))).toNat * 256 else 0 := by
  rw [loneByte, Memory.length_readBytes]
  split_ifs with hodd
  · rw [Memory.getD_readBytes _ _ _ _ (by omega)]
  · rfl

theorem cksumRaw_lt (s : List Byte) (seed : Nat) : cksumRaw s seed < 0x10000 := fold16_lt _

/-- Settles O60: the sum over a sequence by its recursion, and over a range of the buffer by what its bytes are. -/
theorem wordSumByIndex : Obligations.WordSumByIndex := by
  refine ⟨wsum_eq_sum_words, fun m a n => ?range,
    fun s seed => ⟨rfl, Nat.le_of_lt_succ (cksumRaw_lt s seed), rfl⟩⟩
  case range =>
    rw [wsum_eq_sum_words, loneByte_readBytes, Memory.length_readBytes, List.map_congr_left fun k hk => ?_]
    have hk := List.mem_range.mp hk
    exact wordAt_readBytes m a (by omega)

/-! ### The two zeros, and a checksum that was inserted -/

theorem cksum_eq_sub (s : List Byte) (seed : Nat) : cksum s seed = 0xFFFF - cksumRaw s seed := rfl

theorem cksum_eq_zero_iff_raw (s : List Byte) (seed : Nat) : cksum s seed = 0 ↔ cksumRaw s seed = 0xFFFF := by
  have hlt := cksumRaw_lt s seed
  rw [cksum_eq_sub]
  omega

theorem cksum_eq_ones_iff_raw (s : List Byte) (seed : Nat) : cksum s seed = 0xFFFF ↔ cksumRaw s seed = 0 := by
  have hlt := cksumRaw_lt s seed
  rw [cksum_eq_sub]
  omega

theorem cksumRaw_eq_zero_iff (s : List Byte) (seed : Nat) : cksumRaw s seed = 0 ↔ seed = 0 ∧ ∀ x ∈ s, x = 0 := by
  rw [cksumRaw, fold16_eq_zero, Nat.add_eq_zero_iff, wsum_eq_zero]

/-- Settles O16: the zeros of `fold16` by R147's facts (ii) and (iii). -/
theorem theTwoZeros : Obligations.TheTwoZeros := fun bytes seed =>
  ⟨cksumRaw_eq_zero_iff bytes seed, fold16_eq_ones _, congrArg not16, congrArg not16⟩

/-- A range verifies that sums to what another does and, on top of it, that other's checksum: the residue of the total
is that of 0xFFFF, and the total is not 0 (R147). -/
theorem cksum_eq_zero_of_wsum {s t : List Byte} {seed : Nat} (h : wsum t = wsum s + cksum s seed) :
    cksum t seed = 0 := by
  have hlt := fold16_lt (seed + wsum s)
  have hmod := fold16_mod (seed + wsum s)
  have hzero := fold16_eq_zero (seed + wsum s)
  rw [cksum_eq_zero, h, cksum_eq_sub, cksumRaw]
  omega

/-- A range verifies when one word of it, zero until then, was set to the checksum (R147). -/
theorem cksum_set_cksum (s : List Byte) (seed j : Nat) (hj : 2 * j + 1 < s.length) (hhigh : s.getD (2 * j) 0 = 0)
    (hlow : s.getD (2 * j + 1) 0 = 0) :
    cksum ((s.set (2 * j) (BitVec.ofNat 8 (cksum s seed / 256))).set (2 * j + 1)
      (BitVec.ofNat 8 (cksum s seed % 256))) seed = 0 := by
  have hset := wsum_set_pair s j (BitVec.ofNat 8 (cksum s seed / 256)) (BitVec.ofNat 8 (cksum s seed % 256)) hj
  have hlt := cksum_lt s seed
  rw [hhigh, hlow, toNat_zero_byte, BitVec.toNat_ofNat, BitVec.toNat_ofNat] at hset
  exact cksum_eq_zero_of_wsum (s := s) (by omega)

/-- Settles O15: the field that was zero takes the checksum. -/
theorem insertedChecksumVerifies : Obligations.InsertedChecksumVerifies := fun s0 seed j hj hhigh hlow =>
  have hzero := cksum_set_cksum s0 seed j hj hhigh hlow
  ⟨hzero, (cksum_eq_zero_iff_raw _ _).mp hzero⟩

/-! ### `CSUM` -/

/-- `CSUM` is legal outside R146's three error cases. -/
theorem Block.csumLegal_iff (b : Block) : b.csumLegal = true ↔
    ¬ (b.coff.toNat + b.ccnt.toNat > b.cap ∨ b.ckind = 3 ∨
      ((b.ckind = 1 ∨ b.ckind = 2) ∧ b.ccnt.toNat < b.params.numbers.plenAdj)) := by
  simp only [Block.csumLegal, Bool.and_eq_true, Bool.or_eq_true, decide_eq_true_eq, bne_iff_ne, ne_eq, not_or,
    not_and_or, not_lt, gt_iff_lt, and_assoc]

theorem exec_csum {s : State} {b : Block} (h : s.block.csum = b) : exec .csum s = .next { s with block := b } :=
  h ▸ exec_eq .csum s nofun

/-- Settles O18: the three error cases together are `¬ csumLegal`, and each kind has its seed. -/
theorem csumResultOrErr : Obligations.CsumResultOrErr := by
  refine ⟨rfl, fun s => ⟨congrArg Numbers.plenAdj, fun hbad => ?bad, fun hgood => ?good⟩⟩
  case bad =>
    exact exec_csum (Block.csum_illegal fun hlegal => s.block.csumLegal_iff.mp hlegal hbad)
  case good =>
    refine ⟨_, exec_csum (Block.csum_legal (s.block.csumLegal_iff.mpr hgood)), ?_⟩
    rw [toNat_cksum16, Block.csumRange]
    exact ⟨fun hk => by rw [hk]; rfl, fun hk => by rw [hk]; rfl, fun hk => by rw [hk]; rfl⟩

/-! ### The patch -/

/-- The patch is never 0 (R150). -/
theorem patch_pos (f : Nat) : 0 < fold16 (f + 0x0800) := by
  have hzero := fold16_eq_zero (f + 0x0800)
  omega

/-- The patch adds 8 to the high byte, with the carry out of it into the low byte and the carry out of that back into
the high byte (R153). -/
theorem toNat_icmpPatch_of_bytes (c : Half) {hi lo : Nat} (hlo : lo < 256) (hc : c.toNat = hi * 256 + lo) :
    (icmpPatch c).toNat =
      if lo + (if hi > 0xF7 then 1 else 0) = 0x100 then ((hi + 8) % 256 + 1) * 256
      else (hi + 8) % 256 * 256 + (lo + (if hi > 0xF7 then 1 else 0)) := by
  have hlt := c.isLt
  rw [toNat_icmpPatch_eq, hc]
  by_cases hcarry : hi > 0xF7
  · rw [if_pos hcarry, if_neg (by omega)]
    split_ifs <;> omega
  · rw [if_neg hcarry, if_pos (by omega), if_neg (by omega)]
    omega

/-- Settles O17: both spellings by the closed form of the patch; `c` is its two bytes. -/
theorem patchBytewise : Obligations.PatchBytewise := by
  refine fun c => ⟨toNat_icmpPatch c, toNat_icmpPatch c ▸ patch_pos c.toNat, ?carry,
    toNat_icmpPatch_of_bytes c (Nat.mod_lt _ (by decide)) ?bytes⟩
  case carry =>
    have hlt := c.isLt
    rw [toNat_icmpPatch_eq]
    split_ifs <;> omega
  case bytes => exact (Nat.div_add_mod' c.toNat 256).symm

/-! ### `MKECHO` and the ICMP message -/

/-- A range that begins with a whole word. -/
theorem wsum_readBytes_word (m : Memory) (a n : Nat) :
    wsum (m.readBytes a (2 + n)) = m.memRead a 2 + wsum (m.readBytes (a + 2) n) := by
  rw [Memory.readBytes_add, wsum_append _ _ (by simp), Memory.memRead_two]
  simp [Memory.readBytes, List.range_succ, wsum]

/-- What the bytes of an ICMP message of length `L` count other than its type and its checksum field. -/
def Block.icmpOther (b : Block) (L : Nat) : Nat := (b.byte 35).toNat + wsum (b.fb.readBytes 38 (L - 4))

/-- The word sum of an ICMP message: type, checksum field, the rest. -/
theorem wsum_icmp (b : Block) {L : Nat} (hL : 4 ≤ L) :
    wsum (b.fb.readBytes 34 L) = (b.byte 34).toNat * 256 + b.fb.memRead 36 2 + b.icmpOther L := by
  obtain ⟨n, rfl⟩ : ∃ n, L = 2 + (2 + n) := ⟨L - 4, by omega⟩
  rw [wsum_readBytes_word, wsum_readBytes_word, Memory.memRead_two _ 34, Block.icmpOther,
    show 2 + (2 + n) - 4 = n by omega]
  simp only [Block.byte, Nat.reduceAdd]
  omega

/-- The message with its checksum field taken as zero. -/
theorem wsum_icmp_zeroed (b : Block) {L : Nat} (hL : 4 ≤ L) :
    wsum (((b.fb.readBytes 34 L).set 2 0).set 3 0) = (b.byte 34).toNat * 256 + b.icmpOther L := by
  have hset := wsum_set_pair (b.fb.readBytes 34 L) 1 0 0 (by rw [Memory.length_readBytes]; omega)
  rw [Memory.getD_readBytes _ _ _ _ (by omega), Memory.getD_readBytes _ _ _ _ (by omega), wsum_icmp b hL,
    Memory.memRead_two] at hset
  simp only [Nat.reduceMul, Nat.reduceAdd, toNat_zero_byte] at hset
  omega

/-- `MKECHO` changes an ICMP message in its type and its checksum field only. -/
theorem icmpOther_mkecho (b : Block) (L : Nat) : b.mkecho.icmpOther L = b.icmpOther L := by
  rw [Block.icmpOther, byte_mkecho_kept b (by omega),
    Memory.readBytes_congr _ _ _ _ fun x hlo _ => byte_mkecho_kept b (a := x) (by omega), Block.icmpOther]

/-- The message of an echo request. -/
theorem wsum_icmp_request {b : Block} {L : Nat} (hL : 4 ≤ L) (htype : b.byte 34 = 0x08) :
    wsum (b.fb.readBytes 34 L) = 0x0800 + b.fb.memRead 36 2 + b.icmpOther L := by
  rw [wsum_icmp b hL, htype]
  rfl

/-- The message of the reply: type 0, the field patched. -/
theorem wsum_icmp_mkecho (b : Block) {L : Nat} (hL : 4 ≤ L) :
    wsum (b.mkecho.fb.readBytes 34 L) = fold16 (b.fb.memRead 36 2 + 0x0800) + b.icmpOther L := by
  rw [wsum_icmp _ hL, byte_mkecho_type, memRead_mkecho_icmp, icmpOther_mkecho, toNat_zero_byte]
  omega

/-- The message of the reply with its field taken as zero. -/
theorem wsum_icmp_mkecho_zeroed (b : Block) {L : Nat} (hL : 4 ≤ L) :
    wsum (((b.mkecho.fb.readBytes 34 L).set 2 0).set 3 0) = b.icmpOther L := by
  rw [wsum_icmp_zeroed _ hL, byte_mkecho_type, icmpOther_mkecho, toNat_zero_byte]
  omega

/-- The patch gives back what the type of a request loses (R151). -/
theorem wsum_icmp_mkecho_mod {b : Block} {L : Nat} (hL : 4 ≤ L) (htype : b.byte 34 = 0x08) :
    wsum (b.mkecho.fb.readBytes 34 L) % 0xFFFF = wsum (b.fb.readBytes 34 L) % 0xFFFF := by
  have hmod := fold16_mod (b.fb.memRead 36 2 + 0x0800)
  rw [wsum_icmp_mkecho b hL, wsum_icmp_request hL htype]
  omega

/-- The reply to a request that verifies verifies (R151). -/
theorem cksum_icmp_mkecho {b : Block} {L : Nat} (hL : 4 ≤ L) (htype : b.byte 34 = 0x08)
    (hvalid : cksum (b.fb.readBytes 34 L) 0 = 0) : cksum (b.mkecho.fb.readBytes 34 L) 0 = 0 := by
  have hmod := wsum_icmp_mkecho_mod hL htype
  have hpos := patch_pos (b.fb.memRead 36 2)
  rw [cksum_eq_zero, Nat.zero_add] at hvalid ⊢
  exact ⟨wsum_icmp_mkecho b hL ▸ Nat.add_pos_left hpos _, hmod.trans hvalid.2⟩

/-- Settles O9: what the type loses the patch gives back, and the patched field is not 0. -/
theorem mkechoKeepsIcmpValidity : Obligations.MkechoKeepsIcmpValidity := fun s _ hL htype =>
  ⟨_, exec_eq .mkecho s nofun, wsum_icmp_mkecho_mod hL htype, cksum_icmp_mkecho hL htype⟩

/-! ### The patch against a full recompute -/

theorem wsum_ne_zero_iff (s : List Byte) : wsum s ≠ 0 ↔ ∃ x ∈ s, x ≠ 0 := by
  rw [Ne, wsum_eq_zero]
  push Not
  rfl

theorem getD_set_zero (s : List Byte) (i : Nat) : (s.set i 0).getD i 0 = 0 := by
  rw [List.getD_eq_getElem?_getD, List.getElem?_set_self']
  cases s[i]? <;> rfl

theorem getD_set_zero_of_ne (s : List Byte) {i j : Nat} (h : i ≠ j) : ((s.set i 0).set j 0).getD i 0 = 0 := by
  rw [List.set_comm _ _ h]
  exact getD_set_zero _ i

theorem memRead_two_le (m : Memory) (a : Nat) : m.memRead a 2 ≤ 0xFFFF := by
  have hhigh := (m.read a).isLt
  have hlow := (m.read (a + 1)).isLt
  rw [Memory.memRead_two]
  omega

theorem patch_eq_ones_iff {f : Nat} (hf : f ≤ 0xFFFF) : fold16 (f + 0x0800) = 0xFFFF ↔ f = 0xF7FF := by
  rw [fold16_eq_ones]
  omega

theorem not16_fold16_eq_zero_iff {w : Nat} (hw : w % 0xFFFF = 0) : 0xFFFF - fold16 w = 0 ↔ w ≠ 0 := by
  have hones := fold16_eq_ones w
  have hzero := fold16_eq_zero w
  omega

/-- The patched field and the one a full recompute stores, for a field `f` and other bytes that count `w` (R152): they
agree modulo 0xFFFF, so they differ only where the patch is 0xFFFF, which it is of 0xF7FF alone, and the recompute is 0,
which it then is unless `w` is. -/
theorem fold16_patch_recompute {f w : Nat} (hf : f ≤ 0xFFFF) (hvalid : (0x0800 + f + w) % 0xFFFF = 0) :
    fold16 (f + 0x0800) % 0xFFFF = (0xFFFF - fold16 w) % 0xFFFF ∧
    (¬ (f = 0xF7FF ∧ w ≠ 0) → fold16 (f + 0x0800) = 0xFFFF - fold16 w) ∧
    (f = 0xF7FF ∧ w ≠ 0 → fold16 (f + 0x0800) = 0xFFFF ∧ 0xFFFF - fold16 w = 0) := by
  have hpatchMod := fold16_mod (f + 0x0800)
  have hotherMod := fold16_mod w
  have hotherLt := fold16_lt w
  have hagree : fold16 (f + 0x0800) % 0xFFFF = (0xFFFF - fold16 w) % 0xFFFF := by omega
  by_cases hf7 : f = 0xF7FF
  · have hpatch := (patch_eq_ones_iff hf).mpr hf7
    have hother := not16_fold16_eq_zero_iff (w := w) (by omega)
    omega
  · have hpatch := mt (patch_eq_ones_iff hf).mp hf7
    have hpos := patch_pos f
    have hlt := fold16_lt (f + 0x0800)
    omega

/-- Settles O10: the message is its field and the other bytes, so the arithmetic of the two fields decides. -/
theorem patchAgainstRecompute : Obligations.PatchAgainstRecompute := by
  intro s L hL htype hvalid
  refine ⟨_, exec_eq .mkecho s nofun, ?_⟩
  intro zeroed c r odd
  have hc : c = fold16 (s.block.fb.memRead 36 2 + 0x0800) := memRead_mkecho_icmp s.block
  have hzeroed : wsum zeroed = s.block.icmpOther L := wsum_icmp_mkecho_zeroed s.block hL
  have hr : r = 0xFFFF - fold16 (s.block.icmpOther L) := by
    rw [← hzeroed, ← Nat.zero_add (wsum zeroed)]
    rfl
  have hodd : odd ↔ s.block.fb.memRead 36 2 = 0xF7FF ∧ s.block.icmpOther L ≠ 0 := by
    rw [← hzeroed, wsum_ne_zero_iff]
  have hresidue : (0x0800 + s.block.fb.memRead 36 2 + s.block.icmpOther L) % 0xFFFF = 0 := by
    rw [← wsum_icmp_request hL htype, ← Nat.zero_add (wsum _)]
    exact ((cksum_eq_zero _ _).mp hvalid).2
  obtain ⟨hagree, hsame, hdiffer⟩ := fold16_patch_recompute (memRead_two_le s.block.fb 36) hresidue
  rw [← hc, ← hr, ← hodd] at hsame hdiffer
  rw [← hc, ← hr] at hagree
  have hlen : 2 * 1 + 1 < zeroed.length := by simp [zeroed]; omega
  exact ⟨hc ▸ patch_pos _, hc ▸ Nat.le_of_lt_succ (fold16_lt _), Nat.le_of_lt_succ (cksum_lt _ _), hagree,
    fun hones => ((cksumRaw_eq_zero_iff _ _).mp ((cksum_eq_ones_iff_raw _ _).mp hones)).2, hsame, hdiffer,
    cksum_icmp_mkecho hL htype hvalid, cksum_set_cksum zeroed 0 1 hlen (getD_set_zero_of_ne _ (by decide))
      (getD_set_zero _ 3)⟩

end Sys2Proof.Machine
end

section
/-! `STEP` (43_poll.md R160), and the atomic steps of a running `UPDATE` (R165; 44_host_access.md R181, R185): what the
machine's step is at each of them when it is the block's turn. -/

namespace Sys2Proof.Machine

/-! ### `STEP` and `UPDATE` -/

/-- `STEP` is the arm of R160 for the class of the frame. -/
theorem exec_step_of_classify {s : State} {c : FrameClass} (h : s.block.classify = c) :
    exec .step s = .next (s.onBlock fun b => b.answer c) := by
  subst h
  exact exec_eq .step s nofun

/-- Settles O19: the class of the frame under each arm's tests. -/
theorem stepDispatches : Obligations.StepDispatches := by
  refine ⟨rfl, fun s => ⟨fun harp => ⟨_, exec_eq .mkarp s nofun, ?arp⟩, fun harp hip => ?notMe,
    fun harp hip hecho => ⟨_, exec_eq .mkecho s nofun, ?echo⟩, fun harp hip hecho => ?ipOther⟩⟩
  case arp =>
    exact (exec_step_of_classify (classify_arp harp)).trans (congrArg _ (onBlock_setVerdict s Block.mkarp .arp true))
  case notMe => exact exec_step_of_classify (classify_notMe harp hip)
  case echo =>
    exact (exec_step_of_classify (classify_echo harp hip hecho)).trans
      (congrArg _ (onBlock_setVerdict s Block.mkecho .echo true))
  case ipOther => exact exec_step_of_classify (classify_ipOther harp hip hecho)

/-- Settles O32: `UPDATE` completes while IDLE only. -/
theorem updateStartsTheLoop : Obligations.UpdateStartsTheLoop :=
  ⟨rfl, fun s => ⟨fun hidle => exec_eq .update s fun _ => hidle, exec_update_running s⟩⟩

/-- Settles O27: the frame in the buffer is executed by its class, and `SEND` decides between `tx` and `rx`. -/
theorem stepRunsTheDecodedFrame : Obligations.StepRunsTheDecodedFrame := by
  intro s hturn hphase
  refine ⟨_, ?exec, (step_frame hturn hphase).trans (congrArg _ (onBlock_afterStep _))⟩
  case exec =>
    rw [← State.block_taken]
    exact exec_fetchFrame s.taken

/-! ### `rx` -/

/-- The bytes that `rx` returns of a queued frame: none when its CRC-valid bit is clear (R181). -/
def QueuedFrame.received (f : QueuedFrame) (cap : Nat) : List Byte := if f.crcValid then rxBytes cap f else []

/-- A frame that `rx` delivers: CRC-valid and of declared length 5 or more. -/
abbrev QueuedFrame.Good (f : QueuedFrame) : Prop := f.crcValid = true ∧ 5 ≤ f.bytes.length

theorem QueuedFrame.received_of_bad {f : QueuedFrame} (cap : Nat) (h : f.crcValid = false ∨ f.bytes.length = 4) :
    f.received cap = [] := by
  rw [received]
  split_ifs with hcrc
  · exact rxBytes_of_length_four (h.resolve_left (by simp [hcrc]))
  · rfl

theorem QueuedFrame.Good.received_eq {f : QueuedFrame} (h : f.Good) (cap : Nat) : f.received cap = rxBytes cap f :=
  if_pos h.1

theorem QueuedFrame.Good.length_received {f : QueuedFrame} (h : f.Good) (cap : Nat) :
    (f.received cap).length = min (f.bytes.length - 4) (cap - 1) := by
  rw [h.received_eq, length_rxBytes]

theorem Block.forty_three_le_cap (b : Block) : 43 ≤ b.cap := b.params.bufCap.atLeast43

/-- A good frame leaves bytes to deliver, as every buffer has room for some. -/
theorem QueuedFrame.Good.received_ne_nil {f : QueuedFrame} (h : f.Good) (b : Block) : f.received b.cap ≠ [] := by
  have hcap := b.forty_three_le_cap
  have hlen := h.2
  rw [← List.length_pos_iff, h.length_received]
  omega

/-- The bytes of a good frame that are delivered are its first ones. -/
theorem QueuedFrame.Good.getD_received {f : QueuedFrame} (h : f.Good) {cap a : Nat}
    (ha : a < (f.received cap).length) : (f.received cap).getD a 0 = f.bytes.getD a 0 := by
  rw [h.length_received] at ha
  rw [h.received_eq, rxBytes, List.getD, List.getElem?_take_of_lt ha]
  rfl

/-- `rx` of a queued frame: the frame is consumed, and what it returned decides how the loop goes on (R165, R181). -/
theorem step_rx_of_queue_cons {s : State} {f : QueuedFrame} {rest : List QueuedFrame} (hturn : s.blockTurn = true)
    (hphase : s.block.phase = .run .rx) (hqueue : s.host.queue = f :: rest)
    (hlen : f.crcValid = true → 4 ≤ f.bytes.length) :
    step s = .next
      { block := s.block.afterRx (f.received s.block.cap),
        host := { s.taken.host with
          queue := rest, ringPtr := f.next, trace := .rx (f.received s.block.cap).length :: s.host.trace } } := by
  rw [← State.queue_taken] at hqueue
  have hconsume : s.taken.host.consume f = { s.taken.host with queue := rest, ringPtr := f.next } := by
    rw [HostSide.consume, hqueue]
    rfl
  rw [step_of_blockTurn hturn]
  simp only [blockStep, State.block_taken, hphase, rxStep, hqueue, hconsume, QueuedFrame.received]
  cases hcrc : f.crcValid with
  | false => simp [State.onBlock, State.emit]
  | true => simp [State.onBlock, State.emit, Nat.not_lt.mpr (hlen hcrc)]

/-- Nothing received ends the loop, with the latch clear in IDLE. -/
theorem Block.afterRx_nil {b : Block} (hlatch : b.evtLatch = false) : b.afterRx [] = { b with len := 0, phase := .idle } := by
  simp [afterRx, endUpdate, hlatch, setLen, setPhase]

/-- Bytes received are delivered next. -/
theorem Block.afterRx_of_ne_nil (b : Block) {data : List Byte} (h : data ≠ []) :
    b.afterRx data = { b with phase := .run (.load data) } := if_neg h

/-- `rx` that ends the loop received nothing. -/
theorem Block.eq_nil_of_afterRx_idle {b : Block} {data : List Byte} (h : (b.afterRx data).phase = .idle) : data = [] := by
  by_contra hne
  rw [b.afterRx_of_ne_nil hne] at h
  cases h

theorem Block.len_afterRx_nil (b : Block) : (b.afterRx []).len = 0 := by
  simp only [afterRx, if_true, endUpdate]
  split <;> rfl

/-- Settles O33: the step is `rx` on an empty queue, with the latch clear. -/
theorem rxOfAnEmptyQueueEndsTheLoop : Obligations.RxOfAnEmptyQueueEndsTheLoop := by
  intro s hturn hphase hqueue hlatch
  rw [step_rx_of_queue_empty hturn hphase hqueue hlatch, State.onBlock, State.emit, State.block_taken,
    State.trace_taken]
  rfl

/-- Settles O34: of a bad frame nothing is received, and no byte received ends the loop. -/
theorem rxOfABadFrameEndsTheLoop : Obligations.RxOfABadFrameEndsTheLoop := by
  intro s f rest hturn hphase hqueue hbad hlatch
  have hlen (hcrc : f.crcValid = true) : 4 ≤ f.bytes.length := (hbad.resolve_left (by simp [hcrc])).ge
  rw [step_rx_of_queue_cons hturn hphase hqueue hlen, QueuedFrame.received_of_bad _ hbad, Block.afterRx_nil hlatch]
  rfl

/-- `rx` of a good frame: its bytes are delivered next. -/
theorem step_rx_of_good {s : State} {f : QueuedFrame} {rest : List QueuedFrame} (hturn : s.blockTurn = true)
    (hphase : s.block.phase = .run .rx) (hqueue : s.host.queue = f :: rest) (hgood : f.Good) :
    step s = .next
      { block := { s.block with phase := .run (.load (f.received s.block.cap)) },
        host := { s.taken.host with
          queue := rest, ringPtr := f.next, trace := .rx (f.received s.block.cap).length :: s.host.trace } } := by
  rw [step_rx_of_queue_cons hturn hphase hqueue fun _ => Nat.le_of_succ_le hgood.2,
    Block.afterRx_of_ne_nil _ (hgood.received_ne_nil s.block)]

/-! ### Delivery and `tx` -/

theorem step_load {s : State} {data : List Byte} (hturn : s.blockTurn = true)
    (hphase : s.block.phase = .run (.load data)) : step s = .next (loadStep s.taken data) := by
  rw [step_of_blockTurn hturn]
  simp only [blockStep, State.block_taken, hphase]

theorem step_tx {s : State} (hturn : s.blockTurn = true) (hphase : s.block.phase = .run .tx) :
    step s = .next
      { block := { s.block with phase := .run .rx },
        host := { s.taken.host with trace := .tx (s.block.fb.readBytes 0 s.block.rlen.toNat) :: s.host.trace } } := by
  rw [step_of_blockTurn hturn]
  simp only [blockStep, State.block_taken, hphase, txStep, State.onBlock, State.emit, State.trace_taken]
  rfl

/-- Settles O37: the bytes handed over are the range of the buffer that `RLEN` gives. -/
theorem txHandsOverTheReply : Obligations.TxHandsOverTheReply := by
  intro s hturn hphase
  refine ⟨_, Memory.length_readBytes .., fun a ha => ?byte, step_tx hturn hphase⟩
  case byte =>
    rw [Memory.length_readBytes] at ha
    rw [Memory.getD_readBytes _ _ _ _ ha, Nat.zero_add]
    rfl

end Sys2Proof.Machine
end

section
/-! Runs of the poll loop (43_poll.md R165, R166) with nothing arriving: a frame is received, delivered, answered and, if
there is a reply, sent, and the loop is back at `rx`; on the empty queue it ends. -/

namespace Sys2Proof.Machine

/-! ### One frame -/

/-- The state after `rx` and the delivery of the oldest frame `f`, with `rest` queued behind it. -/
def State.delivered (s : State) (f : QueuedFrame) (rest : List QueuedFrame) : State :=
  { block := (s.block.deliver (f.received s.block.cap)).setPhase (.run .step),
    host := { s.host with
      queue := rest, ringPtr := f.next, trace := .rx (f.received s.block.cap).length :: s.host.trace } }

/-- The state with the frame in the buffer answered and the next `rx` to come. -/
def State.answered (s : State) (trace : List Event) : State :=
  { block := (s.block.answer s.block.classify).setPhase (.run .rx), host := { s.host with trace := trace } }

/-- `rx` and delivery of a good frame (R165, R181). -/
theorem run_rx_load {s : State} {f : QueuedFrame} {rest : List QueuedFrame} (k : Nat) (hpending : s.pending = [])
    (hphase : s.block.phase = .run .rx) (hqueue : s.host.queue = f :: rest) (hgood : f.Good) :
    Sys2Proof.core.run (k + 2) s = Sys2Proof.core.run k (s.delivered f rest) := by
  obtain ⟨hturn, htaken⟩ := turn_of_no_input hpending
  rw [run_step (step_rx_of_good hturn hphase hqueue hgood), htaken]
  obtain ⟨hturn', htaken'⟩ := turn_of_no_input (s := { block :=
    { s.block with phase := .run (.load (f.received s.block.cap)) }, host := (s.delivered f rest).host }) hpending
  exact (run_step (step_load hturn' rfl)).trans (by rw [htaken']; rfl)

/-- The `STEP` on a frame that is dropped. -/
theorem run_frame_of_not_send {s : State} (k : Nat) (hpending : s.pending = []) (hphase : s.block.phase = .run .step)
    (hsend : (s.block.answer s.block.classify).send = false) :
    Sys2Proof.core.run (k + 1) s = Sys2Proof.core.run k (s.answered s.host.trace) := by
  obtain ⟨hturn, htaken⟩ := turn_of_no_input hpending
  rw [run_step (step_frame hturn hphase), htaken, onBlock_afterStep, State.block_onBlock, hsend]
  rfl

/-- The `STEP` on a frame that is answered, and the `tx` of the reply. -/
theorem run_frame_of_send {s : State} (k : Nat) (hpending : s.pending = []) (hphase : s.block.phase = .run .step)
    (hsend : (s.block.answer s.block.classify).send = true) :
    Sys2Proof.core.run (k + 2) s = Sys2Proof.core.run k (s.answered
      (.tx ((s.block.answer s.block.classify).fb.readBytes 0 (s.block.answer s.block.classify).rlen.toNat)
        :: s.host.trace)) := by
  obtain ⟨hturn, htaken⟩ := turn_of_no_input hpending
  rw [run_step (step_frame hturn hphase), htaken, onBlock_afterStep, State.block_onBlock, hsend, if_pos rfl]
  obtain ⟨hturn', htaken'⟩ := turn_of_no_input (s := { block :=
    { s.block.answer s.block.classify with phase := .run .tx }, host := s.host }) hpending
  exact (run_step (step_tx hturn' rfl)).trans (by rw [htaken']; rfl)

/-- The last `rx` (R165, R181). -/
theorem run_rx_of_queue_empty {s : State} (hpending : s.pending = []) (hphase : s.block.phase = .run .rx)
    (hqueue : s.host.queue = []) (hlatch : s.block.evtLatch = false) :
    Sys2Proof.core.run 1 s = .next
      { block := { s.block with len := 0, phase := .idle }, host := { s.host with trace := .rx 0 :: s.host.trace } } := by
  obtain ⟨hturn, htaken⟩ := turn_of_no_input hpending
  rw [run_step (rxOfAnEmptyQueueEndsTheLoop s hturn hphase hqueue hlatch), htaken]
  rfl

/-- What every byte of the buffer holds after a delivery: the frame's bytes, and what it held beyond them. -/
theorem byte_delivered (s : State) {f : QueuedFrame} (hgood : f.Good) (rest : List QueuedFrame) (a : Nat) :
    (s.delivered f rest).block.byte a =
      if a < (f.received s.block.cap).length then f.bytes.getD a 0 else s.block.byte a := by
  refine (read_deliver s.block (f.received s.block.cap) a).trans ?_
  split_ifs with ha
  · exact hgood.getD_received ha
  · rfl

theorem len_delivered (s : State) {f : QueuedFrame} (hgood : f.Good) (rest : List QueuedFrame) :
    (s.delivered f rest).block.len.toNat = (f.received s.block.cap).length :=
  toNat_length (by rw [hgood.length_received]; exact (Nat.min_le_right ..).trans (Nat.sub_le ..))

/-- Settles O35: `rx` and the delivery are two steps, and the delivery writes what `rx` returned. -/
theorem rxDeliversAGoodFrame : Obligations.RxDeliversAGoodFrame := by
  intro s f rest hpending hphase hqueue hcrc hlen n
  have hgood : f.Good := ⟨hcrc, hlen⟩
  have hn : (f.received s.block.cap).length = n := hgood.length_received s.block.cap
  refine ⟨s.delivered f rest, run_rx_load 0 hpending hphase hqueue hgood, ?block, ?host,
    (len_delivered s hgood rest).trans hn, fun a ha => ?read, fun a ha => ?kept⟩
  case block => rw [← hn]; rfl
  case host => rw [← hn]; rfl
  case read => rw [byte_delivered s hgood, if_pos (hn ▸ ha)]
  case kept => rw [byte_delivered s hgood, if_neg (Nat.not_lt.mpr (hn ▸ ha))]

/-! ### A queue of good frames -/

/-- A frame in the buffer is answered and, if there is a reply, sent, without a call of `rx`. -/
theorem run_frame {s : State} (hpending : s.pending = []) (hphase : s.block.phase = .run .step) :
    ∃ k ≤ 2, ∃ trace, trace.countP Event.isRx = s.host.trace.countP Event.isRx ∧
      ∀ m, Sys2Proof.core.run (m + k) s = Sys2Proof.core.run m (s.answered trace) := by
  cases hsend : (s.block.answer s.block.classify).send with
  | false => exact ⟨1, by decide, _, rfl, fun m => run_frame_of_not_send m hpending hphase hsend⟩
  | true =>
    refine ⟨2, by decide, _, ?_, fun m => run_frame_of_send m hpending hphase hsend⟩
    exact List.countP_cons_of_neg Bool.false_ne_true

/-- What one turn of the loop leaves: the oldest frame is gone, one more `rx` was called, and the next one follows. -/
structure State.Turned (s t : State) : Prop where
  pending : t.pending = s.pending
  phase : t.block.phase = .run .rx
  evtLatch : t.block.evtLatch = s.block.evtLatch
  err : t.block.err = s.block.err
  queue : t.host.queue = s.host.queue.tail
  rxCalls : t.host.trace.countP Event.isRx = s.host.trace.countP Event.isRx + 1

theorem State.turned_answered_delivered {s : State} {f : QueuedFrame} {rest : List QueuedFrame} {trace : List Event}
    (hqueue : s.host.queue = f :: rest)
    (htrace : trace.countP Event.isRx = (s.delivered f rest).host.trace.countP Event.isRx) :
    s.Turned ((s.delivered f rest).answered trace) := by
  obtain ⟨-, -, -, -, -, -, -, herr, -, hlatch⟩ :=
    answer_frame (s.delivered f rest).block (s.delivered f rest).block.classify
  exact ⟨rfl, rfl, hlatch, herr, by rw [hqueue]; rfl, htrace.trans (List.countP_cons_of_pos rfl)⟩

/-- One turn of the loop takes at most four steps. -/
theorem run_turn {s : State} {f : QueuedFrame} {rest : List QueuedFrame} (hpending : s.pending = [])
    (hphase : s.block.phase = .run .rx) (hqueue : s.host.queue = f :: rest) (hgood : f.Good) :
    ∃ k ≤ 4, ∃ t, s.Turned t ∧ ∀ m, Sys2Proof.core.run (m + k) s = Sys2Proof.core.run m t := by
  obtain ⟨k, hk, trace, htrace, hrun⟩ := run_frame (s := s.delivered f rest) hpending rfl
  refine ⟨k + 2, by omega, _, State.turned_answered_delivered hqueue htrace, fun m => ?_⟩
  rw [← Nat.add_assoc, run_rx_load _ hpending hphase hqueue hgood, hrun]

/-- Settles O40: by induction on the queue, a turn of the loop for each frame. -/
theorem updateDrainsTheQueue : Obligations.UpdateDrainsTheQueue := by
  intro s
  generalize hqueue : s.host.queue = queue
  induction queue generalizing s with
  | nil =>
    intro hpending hphase hlatch _
    exact ⟨1, _, Nat.le_refl 1, run_rx_of_queue_empty hpending hphase hqueue hlatch, rfl, rfl, hqueue, rfl, rfl,
      List.countP_cons_of_pos rfl⟩
  | cons f rest ih =>
    intro hpending hphase hlatch hgood
    obtain ⟨hf, hrest⟩ := List.forall_mem_cons.mp hgood
    obtain ⟨j, hj, t, hturned, hturn⟩ := run_turn hpending hphase hqueue hf
    obtain ⟨k, u, hk, hrun, hidle, hlen, hempty, herr, hlast, hcalls⟩ := ih t (by rw [hturned.queue, hqueue]; rfl)
      (hturned.pending.trans hpending) hturned.phase (hturned.evtLatch.trans hlatch) hrest
    refine ⟨k + j, u, ?_, (hturn k).trans hrun, hidle, hlen, hempty, herr.trans hturned.err, hlast, ?_⟩
    · rw [List.length_cons]; omega
    · rw [hcalls, hturned.rxCalls, List.length_cons]; omega

end Sys2Proof.Machine
end

section
/-! When a running `UPDATE` ends and when it does not (43_poll.md R166; 70_reset_and_hazards.md R230, R247): by an `rx` that
returned 0 or by a reset, and never while good frames keep arriving. -/

namespace Sys2Proof.Machine

/-! ### The steps that end it -/

/-- The block's own step ends a running `UPDATE` only at `rx`, with nothing received. -/
theorem blockStep_ends {s t : State} (h : blockStep s = .next t) (hbusy : s.block.phase.busy = true)
    (hidle : t.block.phase = .idle) : t.host.trace = .rx 0 :: s.host.trace ∧ t.block.len = 0 := by
  obtain ⟨hphase, -⟩ | ⟨-, hrx⟩ | ⟨data, -, rfl⟩ | ⟨-, rfl⟩ | ⟨-, rfl⟩ := blockStep_next h
  case inl => exact absurd hphase ((Phase.busy_iff _).mp hbusy)
  case inr.inl =>
    obtain ⟨data, hs, rfl, -, -, -, htrace, -⟩ := rxStep_next hrx
    obtain rfl := Block.eq_nil_of_afterRx_idle hidle
    exact ⟨congrArg (Event.rx 0 :: ·) htrace, s.block.len_afterRx_nil⟩
  all_goals cases hidle

theorem phase_evtWhileBusy (b : Block) : b.evtWhileBusy.phase = b.phase := by
  rw [Block.evtWhileBusy]
  split <;> rfl

/-- Of the actions of the outside only a reset ends a running `UPDATE`. -/
theorem performAction_ends {a : Action} {s t : State} (h : performAction a s = .next t)
    (hbusy : s.block.phase.busy = true) (hidle : t.block.phase = .idle) : ∃ contents, a = .reset contents := by
  have hne := (Phase.busy_iff _).mp hbusy
  obtain ⟨hallowed, h⟩ := performAction_next h
  cases a with
  | load | unload | peek | poke | wr => cases hallowed hbusy
  | rd | arrive => rw [h] at hidle; exact absurd hidle hne
  | evt =>
    obtain ⟨hphase, -⟩ | ⟨-, rfl⟩ := h
    · exact absurd hphase hne
    · exact absurd ((phase_evtWhileBusy s.block).symm.trans hidle) hne
  | reset contents => exact ⟨contents, rfl⟩

theorem step_ends {s t : State} (h : step s = .next t) (hbusy : s.block.phase.busy = true)
    (hidle : t.block.phase = .idle) :
    (t.host.trace = .rx 0 :: s.host.trace ∧ t.block.len = 0) ∨ ∃ contents, s.Performs (.reset contents) := by
  obtain ⟨-, hown⟩ | ⟨a, hperf, ha⟩ := step_next_cases h
  · rw [← s.trace_taken]
    exact .inl (blockStep_ends hown (by rwa [State.block_taken]) hidle)
  · obtain ⟨contents, rfl⟩ := performAction_ends ha hbusy hidle
    exact .inr ⟨contents, hperf⟩

/-! ### A flood of good frames -/

/-- A predicate that every step keeps holds after any number of steps, none of which stops. -/
theorem run_keeps {P : State → Prop} (hstep : ∀ s, P s → ∃ t, step s = .next t ∧ P t) (k : Nat) {s : State} (hs : P s) :
    ∃ t, Sys2Proof.core.run k s = .next t ∧ P t := by
  induction k generalizing s with
  | zero => exact ⟨s, rfl, hs⟩
  | succ k ih =>
    obtain ⟨t, ht, hPt⟩ := hstep s hs
    obtain ⟨u, hu, hPu⟩ := ih hPt
    exact ⟨u, (run_step ht).trans hu, hPu⟩

/-- `UPDATE` is running and every frame in the queue is good. -/
structure State.RunsOnGood (s : State) : Prop where
  busy : s.block.phase.busy = true
  good : ∀ g ∈ s.host.queue, g.Good

/-- With a good frame queued, the block's own step keeps `UPDATE` running, whichever step it is. -/
theorem State.RunsOnGood.exists_own_step {s : State} (h : s.RunsOnGood) (hturn : s.blockTurn = true)
    (hqueue : s.host.queue ≠ []) :
    ∃ t, step s = .next t ∧ t.RunsOnGood ∧ t.host.inputs = s.taken.host.inputs ∧ t.host.cycle = s.taken.host.cycle := by
  have hkept : ∀ g ∈ s.taken.host.queue, g.Good := by simpa using h.good
  cases hphase : s.block.phase with
  | idle => exact absurd hphase ((Phase.busy_iff _).mp h.busy)
  | run next =>
    cases next with
    | rx =>
      obtain ⟨f, rest, hcons⟩ := List.exists_cons_of_ne_nil hqueue
      obtain ⟨hf, hrest⟩ := List.forall_mem_cons.mp (hcons ▸ h.good)
      exact ⟨_, step_rx_of_good hturn hphase hcons hf, ⟨rfl, hrest⟩, rfl, rfl⟩
    | load data => exact ⟨_, step_load hturn hphase, ⟨rfl, hkept⟩, rfl, rfl⟩
    | step => exact ⟨_, step_frame hturn hphase, ⟨rfl, hkept⟩, rfl, rfl⟩
    | tx => exact ⟨_, step_tx hturn hphase, ⟨rfl, hkept⟩, rfl, rfl⟩

/-- The frame `f` arrives before every step of the block, for ever: it arrives next, or it is there and the block's step is
next. -/
structure State.Flooded (f : QueuedFrame) (s : State) : Prop extends s.RunsOnGood where
  cycle : s.host.cycle = [.atOnce (.arrive f), .tick]
  inputs : s.host.inputs = [] ∨ (s.host.inputs = [.tick] ∧ s.host.queue ≠ [])

theorem step_arrive {s : State} {f : QueuedFrame} (h : s.Performs (.arrive f)) :
    step s = .next (arriveAction s.popInput f) := by
  rw [step_of_performs h]
  simp [performAction, Action.allowedWhileRunning]

/-- A flood goes on. -/
theorem State.Flooded.exists_step {f : QueuedFrame} (hf : f.Good) {s : State} (h : s.Flooded f) :
    ∃ t, step s = .next t ∧ t.Flooded f := by
  obtain hinputs | ⟨hinputs, hqueue⟩ := h.inputs
  case inl =>
    have hpending : s.pending = [.atOnce (.arrive f), .tick] := (State.pending_of_nil hinputs).trans h.cycle
    have hgood : ∀ g ∈ s.host.queue ++ [f], g.Good := List.forall_mem_append.mpr ⟨h.good, by simpa using hf⟩
    refine ⟨_, step_arrive (.inl (congrArg List.head? hpending)), ⟨h.busy, hgood⟩, h.cycle, .inr ⟨?_, ?_⟩⟩
    · exact congrArg List.tail hpending
    · exact List.append_ne_nil_of_right_ne_nil _ (List.cons_ne_nil f [])
  case inr =>
    have hpending : s.pending = [.tick] := State.pending_of_cons hinputs
    have hturn : s.blockTurn = true := by rw [State.blockTurn, hpending]
    have htaken : s.taken = s.popInput := by rw [State.taken, hpending]
    obtain ⟨t, hstep, hruns, htInputs, htCycle⟩ := h.exists_own_step hturn hqueue
    rw [htaken] at htInputs htCycle
    exact ⟨t, hstep, hruns, htCycle.trans h.cycle, .inl (htInputs.trans (congrArg List.tail hpending))⟩

/-- Settles O41: the ends of a running `UPDATE` by the inversion of the step, and the flood by its invariant. -/
theorem updateEndsOnlyOnRxZero : Obligations.UpdateEndsOnlyOnRxZero := by
  refine ⟨fun s t hbusy hstep hidle => step_ends hstep hbusy hidle, ?flood⟩
  case flood =>
    intro s f hbusy hcrc hlen hgood hinputs hcycle k
    obtain ⟨t, hrun, hflooded⟩ := run_keeps (fun _ => State.Flooded.exists_step ⟨hcrc, hlen⟩) k
      (show s.Flooded f from ⟨⟨hbusy, hgood⟩, hcycle, .inl hinputs⟩)
    exact ⟨t, hrun, hflooded.busy⟩

end Sys2Proof.Machine
end

section
/-! The document's end-to-end scenario (95_test_vectors.md S7): one event, one queued resolution request, one reply. -/

namespace Sys2Proof.Machine

/-! ### The event -/

/-- The state after an input that started `UPDATE`. -/
def State.started (s : State) : State := s.popInput.onBlock Block.startUpdate

/-- An `EVT` edge while IDLE starts `UPDATE` (60_exceptions.md R206). -/
theorem step_evt_of_idle {s : State} (h : s.Performs .evt) (hidle : s.block.phase = .idle) :
    step s = .next s.started := by
  rw [step_of_performs h]
  simp only [performAction, Action.allowedWhileRunning, Bool.not_true, Bool.and_false, Bool.false_eq_true, if_false,
    evtAction, State.block_popInput, hidle]
  exact exec_eq .update s.popInput fun _ => hidle

/-- The only input taken, nothing is pending. -/
theorem pending_started_of_single {s : State} {i : Input} (hinputs : s.host.inputs = [i]) (hcycle : s.host.cycle = []) :
    s.started.pending = [] := by
  have htail : s.started.host.inputs = [] := congrArg List.tail (State.pending_of_cons hinputs)
  exact (State.pending_of_nil htail).trans hcycle

/-! ### The request in the buffer and the reply to it -/

/-- A delivered frame is a resolution request for this device when its bytes are (30_encoding.md R78), for R6's gate. -/
theorem arpForMe_delivered {s : State} {f : QueuedFrame} (hgood : f.Good) (rest : List QueuedFrame)
    (hr6 : s.block.params.numbers = Numbers.r6) (hlen : (f.received s.block.cap).length = 42)
    (h12 : f.bytes.getD 12 0 = 0x08) (h13 : f.bytes.getD 13 0 = 0x06)
    (hip : ∀ k < 4, f.bytes.getD (38 + k) 0 = (ipBytes s.block.params.myip).getD k 0) :
    (s.delivered f rest).block.ArpForMe := by
  have hbyte {a : Nat} (ha : a < 42) : (s.delivered f rest).block.byte a = f.bytes.getD a 0 := by
    rw [byte_delivered s hgood, if_pos (hlen ▸ ha)]
  refine ⟨?gate, (hbyte (by decide)).trans h12, (hbyte (by decide)).trans h13,
    (Block.myIpAt_iff_forall_byte _ _).mpr fun k hk => (hbyte (by omega)).trans (hip k hk)⟩
  case gate =>
    rw [len_delivered s hgood, hlen]
    exact hr6 ▸ (by decide : Numbers.r6.arpMinLen ≤ 42)

/-- The state after the reply to the resolution request in the buffer was built and sent (R120, R165), for R6's length. -/
def State.arpReplied (s : State) : State :=
  { block := { s.block with fb := s.block.mkarp.fb, rlen := 42, cls := .arp, send := true, phase := .run .rx },
    host := { s.host with trace := .tx (s.block.mkarp.fb.readBytes 0 42) :: s.host.trace } }

/-- The `STEP` on a resolution request and the `tx` of the reply (43_poll.md R165). -/
theorem run_arp_request {s : State} (k : Nat) (hpending : s.pending = []) (hphase : s.block.phase = .run .step)
    (hr6 : s.block.params.numbers = Numbers.r6) (harp : s.block.ArpForMe) :
    Sys2Proof.core.run (k + 2) s = Sys2Proof.core.run k s.arpReplied := by
  have hanswer : s.block.answer s.block.classify =
      { s.block with fb := s.block.mkarp.fb, rlen := 42, cls := .arp, send := true } := by
    rw [classify_arp harp, Block.answer, Block.fb_mkarp, Block.mkarp_eq, hr6]
    rfl
  rw [run_frame_of_send k hpending hphase (by rw [hanswer]), State.answered, hanswer]
  rfl

/-- The bytes of a reply to a resolution request (41_reply.md R120): the addresses exchanged, the opcode "reply". -/
structure IsArpReply (p : Params) (request reply : List Byte) : Prop where
  ethDst : ∀ k < 6, reply.getD k 0 = request.getD (6 + k) 0
  ethSrc : ∀ k < 6, reply.getD (6 + k) 0 = (macBytes p.mymac).getD k 0
  kept : ∀ k < 8, reply.getD (12 + k) 0 = request.getD (12 + k) 0
  opcodeHigh : reply.getD 20 0 = 0x00
  opcodeLow : reply.getD 21 0 = 0x02
  senderMac : ∀ k < 6, reply.getD (22 + k) 0 = (macBytes p.mymac).getD k 0
  senderIp : ∀ k < 4, reply.getD (28 + k) 0 = (ipBytes p.myip).getD k 0
  targetMac : ∀ k < 6, reply.getD (32 + k) 0 = request.getD (22 + k) 0
  targetIp : ∀ k < 4, reply.getD (38 + k) 0 = request.getD (28 + k) 0

/-- `MKARP` makes of the request in the buffer its reply. -/
theorem isArpReply_mkarp {b : Block} {request : List Byte} (hbyte : ∀ a < 42, b.byte a = request.getD a 0) :
    IsArpReply b.params request (b.mkarp.fb.readBytes 0 42) := by
  have hreply {a : Nat} (ha : a < 42) : (b.mkarp.fb.readBytes 0 42).getD a 0 = b.mkarp.fb.read a := by
    rw [Memory.getD_readBytes _ _ _ _ ha, Nat.zero_add]
  exact {
    ethDst := fun k hk => (hreply (by omega)).trans
      ((Memory.readBytes_zero_eq_readBytes_iff.mp (readBytes_mkarp_ethDst b) k hk).trans (hbyte _ (by omega)))
    ethSrc := fun k hk => (hreply (by omega)).trans (Memory.read_of_readBytes_eq (readBytes_mkarp_ethSrc b) hk)
    kept := fun k hk => (hreply (by omega)).trans ((byte_mkarp_kept b (by omega)).trans (hbyte _ (by omega)))
    opcodeHigh := (hreply (by decide)).trans
      (Memory.read_of_readBytes_eq (k := 0) (readBytes_mkarp_opcode b) (by decide))
    opcodeLow := (hreply (by decide)).trans
      (Memory.read_of_readBytes_eq (k := 1) (readBytes_mkarp_opcode b) (by decide))
    senderMac := fun k hk => (hreply (by omega)).trans (Memory.read_of_readBytes_eq (readBytes_mkarp_senderMac b) hk)
    senderIp := fun k hk => (hreply (by omega)).trans (Memory.read_of_readBytes_eq (readBytes_mkarp_senderIp b) hk)
    targetMac := fun k hk => (hreply (by omega)).trans
      ((Memory.readBytes_eq_readBytes_iff.mp (readBytes_mkarp_targetMac b) k hk).trans (hbyte _ (by omega)))
    targetIp := fun k hk => (hreply (by omega)).trans
      ((Memory.readBytes_eq_readBytes_iff.mp (readBytes_mkarp_targetIp b) k hk).trans (hbyte _ (by omega))) }

/-! ### The scenario -/

/-- Settles O38: the event, `rx` and delivery of the request, `STEP` and `tx` of its reply, and the last `rx`. -/
theorem oneRequestOneReply : Obligations.OneRequestOneReply := by
  intro s f hr6 hidle hlatch hinputs hcycle hqueue hcrc hlen h12 h13 hip
  have hgood : f.Good := ⟨hcrc, by omega⟩
  have hreceived : (f.received s.block.cap).length = 42 := by
    have hcap := s.block.forty_three_le_cap
    rw [hgood.length_received]
    omega
  have hperf : s.Performs .evt := .inr ⟨by rw [State.pending_of_cons hinputs]; rfl, hidle⟩
  have hpending := pending_started_of_single hinputs hcycle
  have harp : (s.started.delivered f []).block.ArpForMe := arpForMe_delivered hgood [] hr6 hreceived h12 h13 hip
  have hreply : IsArpReply s.block.params f.bytes ((s.started.delivered f []).block.mkarp.fb.readBytes 0 42) :=
    isArpReply_mkarp fun a ha => (byte_delivered s.started hgood [] a).trans (if_pos (hreceived ▸ ha))
  have hevt := run_step (k := 5) (step_evt_of_idle hperf hidle)
  have hload := run_rx_load 3 hpending rfl hqueue hgood
  have htx := run_arp_request (s := s.started.delivered f []) 1 hpending rfl hr6 harp
  have hend := run_rx_of_queue_empty (s := (s.started.delivered f []).arpReplied) hpending rfl rfl hlatch
  refine ⟨_, _, hevt.trans (hload.trans (htx.trans hend)), ?trace, hpending, rfl, rfl, ?block,
    Memory.length_readBytes .., hreply.ethDst, hreply.ethSrc, hreply.kept, hreply.opcodeHigh, hreply.opcodeLow,
    hreply.senderMac, hreply.senderIp, hreply.targetMac, hreply.targetIp⟩
  case trace => exact congrArg (List.cons _) (congrArg (List.cons _) (congrArg (Event.rx · :: s.host.trace) hreceived))
  case block => rw [← hidle]; rfl

end Sys2Proof.Machine
end

section
/-! The host's accesses to the frame buffer while IDLE (44_host_access.md R180, R182, R183), the received frame that `rx`
does not take (R181, 93 U6), and construction (R186). -/

namespace Sys2Proof.Machine

/-! ### `LOAD` -/

theorem step_load_of_lt {s : State} {data : List Byte} (h : s.Performs (.load data)) (hidle : s.block.phase = .idle)
    (hlen : data.length < s.block.params.bufCap.bytes) : step s = .next (s.popInput.onBlock fun b => b.deliver data) := by
  rw [step_of_performs h]
  simp [performAction, hidle, loadAction, State.onBlock, Block.load_fits hlen]

theorem step_load_of_le {s : State} {data : List Byte} (h : s.Performs (.load data)) (hidle : s.block.phase = .idle)
    (hlen : s.block.params.bufCap.bytes ≤ data.length) : step s = .next (s.popInput.onBlock Block.raiseErr) := by
  rw [step_of_performs h]
  simp [performAction, hidle, loadAction, State.onBlock, Block.load_too_long (Nat.not_lt.mpr hlen)]

/-- Settles O45: the buffer has room for no byte and for up to `BUF_CAP-1`, and a delivery is known byte by byte. -/
theorem loadDeliversOrErr : Obligations.LoadDeliversOrErr := by
  intro s data hperf hidle
  have hcap := s.block.params.bufCap.atLeast43
  refine ⟨?empty, fun hpos hle => ⟨_, step_load_of_lt hperf hidle (by omega), rfl, toNat_length (hle.trans (Nat.sub_le ..)),
    fun a ha => (read_deliver s.block data a).trans (if_pos ha),
    fun a ha => (read_deliver s.block data a).trans (if_neg (Nat.not_lt.mpr ha))⟩, step_load_of_le hperf hidle⟩
  case empty =>
    rintro rfl
    exact step_load_of_lt hperf hidle (Nat.zero_lt_of_lt hcap)

/-! ### `UNLOAD`, `PEEK` and `POKE` -/

theorem step_unload {s : State} {n : Nat} (h : s.Performs (.unload n)) (hidle : s.block.phase = .idle) :
    step s = .next (unloadAction s.popInput n) := by
  rw [step_of_performs h]
  simp [performAction, hidle]

theorem step_peek {s : State} {a : Nat} (h : s.Performs (.peek a)) (hidle : s.block.phase = .idle) :
    step s = .next (peekAction s.popInput a) := by
  rw [step_of_performs h]
  simp [performAction, hidle]

theorem step_poke {s : State} {a : Nat} {v : Byte} (h : s.Performs (.poke a v)) (hidle : s.block.phase = .idle) :
    step s = .next (pokeAction s.popInput a v) := by
  rw [step_of_performs h]
  simp [performAction, hidle]

/-- Settles O46: the bytes returned are the range of the buffer from offset 0. -/
theorem unloadReturnsTheBytes : Obligations.UnloadReturnsTheBytes := by
  intro s n hperf hidle
  refine ⟨fun hle => ⟨s.block.fb.readBytes 0 n, Memory.length_readBytes .., fun a ha => ?byte,
    (step_unload hperf hidle).trans (congrArg _ (if_pos hle))⟩,
    fun hlt => (step_unload hperf hidle).trans (congrArg _ (if_neg (Nat.not_le.mpr hlt)))⟩
  case byte =>
    rw [Memory.getD_readBytes _ _ _ _ ha, Nat.zero_add]
    rfl

/-- Settles O47: each access inside the buffer and outside it; a read after the write of `POKE`. -/
theorem peekAndPoke : Obligations.PeekAndPoke := by
  intro s a v hidle
  have hread (x : Nat) := Memory.read_write s.block.fb a v x
  refine ⟨?peekInside, ?peekOutside, ?pokeInside, ?pokeOutside⟩
  case peekInside => exact fun hperf ha => (step_peek hperf hidle).trans (congrArg _ (if_pos ha))
  case peekOutside => exact fun hperf ha => (step_peek hperf hidle).trans (congrArg _ (if_neg (Nat.not_lt.mpr ha)))
  case pokeInside =>
    exact fun hperf ha => ⟨s.popInput.onBlock fun b => b.setFb (b.fb.write a v),
      (step_poke hperf hidle).trans (congrArg _ (if_pos ha)), rfl, (hread a).trans (if_pos rfl),
      fun x hx => (hread x).trans (if_neg hx)⟩
  case pokeOutside => exact fun hperf ha => (step_poke hperf hidle).trans (congrArg _ (if_neg (Nat.not_lt.mpr ha)))

/-! ### `rx` of a frame too short for its CRC -/

/-- Settles O36: the block's own step is `rx`, and neither the CRC-valid bit nor the declared length lets it answer. -/
theorem rxOfAWrappedLengthIsRefused : Obligations.RxOfAWrappedLengthIsRefused := by
  intro s f rest hturn hphase hqueue hcrc hlen
  rw [← State.queue_taken] at hqueue
  rw [step_of_blockTurn hturn]
  simp only [blockStep, State.block_taken, hphase, rxStep, hqueue]
  simp [hcrc, hlen]

/-! ### Construction -/

/-- What is constructed is in its reset state, its capacity the one requested clamped to 1500 (R186). -/
theorem construct_of_le (mac : Mac) (ip : Ip) {requested : Nat} (evt : EvtWhileBusy) (numbers : Numbers)
    (contents : List Byte) (h : 43 ≤ requested) : ∃ cap : BufCap, cap.bytes = min requested 1500 ∧
      construct mac ip requested evt numbers contents =
        some (State.resetWith ⟨mac, ip, cap, evt, numbers⟩ (Memory.ofBytes (contents.take cap.bytes))) :=
  have hcap : 43 ≤ min requested 1500 := le_min h (by decide)
  ⟨⟨_, hcap, Nat.min_le_right ..⟩, rfl, dif_pos hcap⟩

/-- Nothing is constructed below a capacity of 43 (00_scope.md R6). -/
theorem construct_of_lt (mac : Mac) (ip : Ip) {requested : Nat} (evt : EvtWhileBusy) (numbers : Numbers)
    (contents : List Byte) (h : requested < 43) : construct mac ip requested evt numbers contents = none :=
  dif_neg (by omega)

/-- Settles O57: a reset state meets the invariant, its contents being canonical and inside the buffer. -/
theorem constructionClampsCapacity : Obligations.ConstructionClampsCapacity := by
  intro mac ip requested evt numbers contents
  refine ⟨fun h => ?built, construct_of_lt mac ip evt numbers contents⟩
  case built =>
    obtain ⟨cap, hcap, hconstruct⟩ := construct_of_le mac ip evt numbers contents h
    have hinv (hnum : Params.numbersOk ⟨mac, ip, cap, evt, numbers⟩ = true) :=
      inv_resetWith hnum (Memory.wf_ofBytes (contents.take cap.bytes)) (Memory.below_ofBytes_take cap.bytes contents)
    exact ⟨_, hconstruct, rfl, rfl, rfl, hcap, rfl, rfl,
      fun a ha hlt => read_ofBytes_take contents ha (hlt.trans_eq hcap.symm), hinv,
      fun hr6 => hinv (numbersOk_of_r6 hr6)⟩

end Sys2Proof.Machine
end

section
/-! Events (60_exceptions.md R206, R207): an `EVT` edge while IDLE, one while `PHASE = RUN`, and the end of a running
`UPDATE` with the latch set. -/

namespace Sys2Proof.Machine

/-! ### The edge -/

/-- Settles O42: the step is `exec` of `UPDATE`, which completes while IDLE. -/
theorem eventStartsUpdate : Obligations.EventStartsUpdate := fun s hperf hidle =>
  have hstep := step_evt_of_idle hperf hidle
  ⟨hstep.trans (exec_eq .update s.popInput fun _ => hidle).symm, hstep⟩

theorem evtAction_of_idle {s : State} (h : s.block.phase = .idle) : evtAction s = exec .update s := by
  simp only [evtAction, h]

theorem evtAction_of_run {s : State} {next : UpdateStep} (h : s.block.phase = .run next) :
    evtAction s = .next (s.onBlock Block.evtWhileBusy) := by
  simp only [evtAction, h]

/-- An event is taken in every phase. -/
theorem performAction_evt (s : State) : performAction .evt s = evtAction s := by
  simp [performAction, Action.allowedWhileRunning]

/-- An `EVT` edge while `PHASE = RUN` (R207). -/
theorem step_evt_of_busy {s : State} (h : s.Performs .evt) (hbusy : s.block.phase.busy = true) :
    step s = .next (s.popInput.onBlock Block.evtWhileBusy) := by
  rw [step_of_performs h, performAction_evt]
  cases hphase : s.block.phase with
  | idle => exact absurd hphase ((Phase.busy_iff _).mp hbusy)
  | run next => exact evtAction_of_run hphase

theorem Block.evtWhileBusy_of_ignored {b : Block} (h : b.params.evtWhileBusy = .ignored) : b.evtWhileBusy = b := by
  simp only [evtWhileBusy, h]

theorem Block.evtWhileBusy_of_latched {b : Block} (h : b.params.evtWhileBusy = .latched) :
    b.evtWhileBusy = { b with evtLatch := true } := by
  simp only [evtWhileBusy, h, setLatch]

/-! ### The end of the running `UPDATE` -/

/-- `rx` on an empty queue returns nothing (44_host_access.md R181). -/
theorem step_rx_of_queue_nil {s : State} (hturn : s.blockTurn = true) (hphase : s.block.phase = .run .rx)
    (hqueue : s.host.queue = []) :
    step s = .next { block := s.block.afterRx [], host := { s.taken.host with trace := .rx 0 :: s.host.trace } } := by
  rw [step_of_blockTurn hturn]
  simp only [blockStep, rxStep, State.block_taken, State.queue_taken, hphase, hqueue, State.onBlock, State.emit,
    State.trace_taken]

/-- Nothing received with the latch set: one more `UPDATE` starts at once (60_exceptions.md R207). -/
theorem Block.afterRx_nil_of_latch {b : Block} (hlatch : b.evtLatch = true) :
    b.afterRx [] = { b with len := 0, evtLatch := false, phase := .run .rx } := by
  simp [afterRx, endUpdate, hlatch, startUpdate, setLen, setLatch, setPhase]

/-- Settles O43: the edge by `EVT_WHILE_BUSY`; each `rx` that returns nothing meets the latch set. -/
theorem eventWhileBusy : Obligations.EventWhileBusy := by
  intro s
  refine ⟨fun hperf hbusy hignored => ?ignored, fun hperf hbusy hlatched => ?latched,
    fun hturn hphase hqueue hlatch => ?empty, fun f rest hturn hphase hqueue hbad hlatch => ?bad⟩
  case ignored =>
    rw [step_evt_of_busy hperf hbusy, State.onBlock, State.block_popInput, Block.evtWhileBusy_of_ignored hignored]
    rfl
  case latched =>
    rw [step_evt_of_busy hperf hbusy, State.onBlock, State.block_popInput, Block.evtWhileBusy_of_latched hlatched]
  case empty => rw [step_rx_of_queue_nil hturn hphase hqueue, Block.afterRx_nil_of_latch hlatch]
  case bad =>
    have hlen (hcrc : f.crcValid = true) : 4 ≤ f.bytes.length := (hbad.resolve_left (by simp [hcrc])).ge
    rw [step_rx_of_queue_cons hturn hphase hqueue hlen, QueuedFrame.received_of_bad _ hbad,
      Block.afterRx_nil_of_latch hlatch]
    rfl

end Sys2Proof.Machine
end

section
/-! `STATUS.ERR` (60_exceptions.md R200, R202, R203): the causes that set it, said once by
`Action.Misuses` and `performAction_err`; that it stays set; and that no run without the host's accesses sets it. -/

namespace Sys2Proof.Machine

/-! ### The block's own steps -/

theorem err_endUpdate (b : Block) : b.endUpdate.err = b.err := by
  rw [Block.endUpdate]
  split <;> rfl

theorem err_afterRx (b : Block) (data : List Byte) : (b.afterRx data).err = b.err := by
  rw [Block.afterRx]
  split
  · exact err_endUpdate _
  · rfl

theorem err_evtWhileBusy (b : Block) : b.evtWhileBusy.err = b.err := by
  rw [Block.evtWhileBusy]
  split <;> rfl

/-- The block's own step leaves `ERR`, whatever the frame (R200). -/
theorem blockStep_err {s t : State} (h : blockStep s = .next t) : t.block.err = s.block.err := by
  obtain ⟨-, rfl⟩ | ⟨-, hrx⟩ | ⟨data, -, rfl⟩ | ⟨-, rfl⟩ | ⟨-, rfl⟩ := blockStep_next h
  case inr.inl =>
    obtain ⟨data, hs, rfl, -⟩ := rxStep_next hrx
    exact err_afterRx s.block data
  case inr.inr.inr.inl =>
    obtain ⟨-, -, -, -, -, -, -, herr, -⟩ := answer_frame s.block s.block.classify
    exact (congrArg Block.err (effect_fetchFrame s.block)).trans herr
  all_goals rfl

/-! ### The causes of `raise Err` -/

/-- The legal command codes are those that decode (30_encoding.md R84, R85). -/
theorem commandLegal_eq (code : Byte) : commandLegal code = (decodeCommand code).isSome := by
  unfold decodeCommand
  split
  case h_9 =>
    have hreserved : ¬ (1 ≤ code.toNat ∧ code.toNat ≤ 8) := by
      simp only [imp_false] at *
      omega
    simpa [commandLegal] using hreserved
  all_goals
    next hcode => rw [commandLegal, hcode]; rfl

/-- The registers the host may write are those of `writeReg` that store (10_state.md R30). -/
theorem err_writeReg_of_plainWritable (b : Block) {reg : Byte} (v : Half) (h : plainWritable reg = true) :
    (b.writeReg reg v).err = b.err := by
  simp only [plainWritable, Bool.or_eq_true, beq_iff_eq, or_assoc] at h
  obtain rfl | rfl | rfl | rfl := h <;> rfl

theorem writeReg_raises_of_not_plainWritable (b : Block) {reg : Byte} (v : Half) (hreg : reg ≠ 0x00)
    (h : plainWritable reg = false) : b.writeReg reg v = b.raiseErr := by
  simp only [plainWritable, Bool.or_eq_false_iff, beq_eq_false_iff_ne, and_assoc] at h
  exact writeReg_raises b v (by simpa using ⟨hreg, h⟩)

/-- The causes of `raise Err` (60_exceptions.md R202). -/
def Action.Misuses (b : Block) : Action → Prop
  | .load data => ¬ data.length < b.cap
  | .unload n => ¬ n ≤ b.cap
  | .peek a => ¬ a < b.cap
  | .poke a _ => ¬ a < b.cap
  | .wr reg v =>
    if reg = 0x00 then
      decodeCommand (commandCode v) = none ∨ decodeCommand (commandCode v) = some .csum ∧ b.csumLegal = false
    else plainWritable reg = false
  | .rd _ | .evt | .reset _ | .arrive _ => False

/-- The causes are: an ill-formed action, which an arriving frame is not counted among, and `CSUM` with illegal operands
(42_checksum.md R146). -/
theorem misuses_iff (a : Action) (b : Block) : a.Misuses b ↔
    (a.wellFormed b.params = false ∧ ∀ f, a ≠ .arrive f) ∨
      ∃ v, a = .wr 0x00 v ∧ decodeCommand (commandCode v) = some .csum ∧ b.csumLegal = false := by
  cases a with
  | wr reg v =>
    by_cases hreg : reg = 0x00
    · subst hreg
      simp [Action.Misuses, Action.wellFormed, commandLegal_eq, commandCode, plainWritable]
    · simp [Action.Misuses, Action.wellFormed, show ¬ reg = 0#8 from hreg]
  | load | unload | peek | poke | rd | evt | reset | arrive => simp [Action.Misuses, Action.wellFormed, Block.cap]

/-- A command raises `ERR` or leaves it: `CSUM` with illegal operands raises it (42_checksum.md R146). -/
theorem effect_err (i : Instr) (b : Block) :
    (i = .csum ∧ b.csumLegal = false → effect i b = b.raiseErr) ∧
      (¬ (i = .csum ∧ b.csumLegal = false) → (effect i b).err = b.err) := by
  refine ⟨fun ⟨hi, hillegal⟩ => ?raises, fun hlegal => ?keeps⟩
  case raises =>
    subst hi
    exact Block.csum_illegal (by simp [hillegal])
  case keeps =>
    by_cases hi : i = .csum
    · subst hi
      rw [effect, Block.csum_legal (by simpa using hlegal)]
      rfl
    · obtain ⟨-, -, -, -, herr⟩ := effect_frame i b
      exact herr hi

/-- An action of the outside other than a reset raises `ERR` and changes nothing else of the block, or leaves `ERR`: the
former exactly on the causes of R202. -/
theorem performAction_err {a : Action} {s t : State} (h : performAction a s = .next t)
    (hreset : ∀ contents, a ≠ .reset contents) :
    (a.Misuses s.block → t.block = s.block.raiseErr) ∧ (¬ a.Misuses s.block → t.block.err = s.block.err) := by
  obtain ⟨-, h⟩ := performAction_next h
  cases a with
  | load data =>
    rw [h, loadAction, State.block_onBlock]
    exact ⟨fun hlen => Block.load_too_long hlen, fun hlen => by rw [Block.load_fits (not_not.mp hlen)]; rfl⟩
  | unload n =>
    rw [h, unloadAction]
    split_ifs with hn <;> simp [Action.Misuses, hn]
  | peek x =>
    rw [h, peekAction]
    split_ifs with hx <;> simp [Action.Misuses, hx]
  | poke x v =>
    rw [h, pokeAction]
    split_ifs with hx <;> simp [Action.Misuses, hx]
  | rd reg => exact ⟨False.elim, fun _ => by rw [h]; rfl⟩
  | wr reg v =>
    obtain ⟨hreg, rfl⟩ | ⟨rfl, ⟨i, hi, hexec⟩ | ⟨hnone, rfl⟩⟩ := h
    · rw [Action.Misuses, if_neg hreg, Bool.not_eq_false]
      exact ⟨writeReg_raises_of_not_plainWritable _ v hreg, err_writeReg_of_plainWritable _ v⟩
    · obtain ⟨rfl, -⟩ := exec_next hexec
      simpa [Action.Misuses, hi] using effect_err i s.block
    · simp [Action.Misuses, hnone, reservedCommand]
  | evt =>
    refine ⟨False.elim, fun _ => ?_⟩
    obtain ⟨-, rfl⟩ | ⟨-, rfl⟩ := h
    · rfl
    · exact err_evtWhileBusy s.block
  | reset contents => exact absurd rfl (hreset contents)
  | arrive f => exact ⟨False.elim, fun _ => by rw [h]; rfl⟩

/-- Settles O51: the block's own step leaves `ERR`, and every action but a reset leaves or raises it. -/
theorem errIsSticky : Obligations.ErrIsSticky := by
  intro s t herr hstep
  obtain ⟨-, hown⟩ | ⟨a, hperf, ha⟩ := step_next_cases hstep
  · exact .inl ((blockStep_err hown).trans (by rwa [State.block_taken]))
  · by_cases hreset : ∃ contents, a = .reset contents
    · obtain ⟨contents, rfl⟩ := hreset
      exact .inr ⟨contents, hperf⟩
    · obtain ⟨hraises, hkeeps⟩ := performAction_err ha (not_exists.mp hreset)
      by_cases hmisuse : a.Misuses s.block
      · exact .inl (congrArg Block.err (hraises hmisuse))
      · exact .inl ((hkeeps hmisuse).trans herr)

/-- A reset is well-formed. -/
theorem ne_reset_of_illFormed {a : Action} {p : Params} (h : a.wellFormed p = false) (contents : List Byte) :
    a ≠ .reset contents := by
  rintro rfl
  cases h

/-- Settles O53: of the two forms an action has by `performAction_err`, the causes of R202 decide. -/
theorem onlyMisuseSetsErr : Obligations.OnlyMisuseSetsErr := by
  refine ⟨fun s t hturn hstep => ?own, fun s t a hperf hstep hwf hcsum hreset => ?wellFormed,
    fun s t a hperf hstep hill harrive => ?illFormed, fun s f hperf => step_arrive hperf⟩
  case own =>
    rw [step_of_blockTurn hturn] at hstep
    exact (blockStep_err hstep).trans (by rw [State.block_taken])
  all_goals rw [step_of_performs hperf] at hstep
  case wellFormed =>
    refine (performAction_err hstep hreset).2 fun hmisuse => ?_
    obtain ⟨hill, harrive⟩ | ⟨v, rfl, hcode, hillegal⟩ := (misuses_iff a s.block).mp hmisuse
    · obtain hwf | ⟨f, rfl⟩ := hwf
      · cases hwf.symm.trans hill
      · exact harrive f rfl
    · cases (hcsum _ v rfl rfl hcode).symm.trans hillegal
  case illFormed =>
    exact (performAction_err hstep (ne_reset_of_illFormed hill)).1 ((misuses_iff a s.block).mpr (.inl ⟨hill, harrive⟩))

/-! ### A run with no host action to come -/

theorem blockStep_inputs {s t : State} (h : blockStep s = .next t) :
    t.host.inputs = s.host.inputs ∧ t.host.cycle = s.host.cycle := by
  obtain ⟨-, rfl⟩ | ⟨-, hrx⟩ | ⟨data, -, rfl⟩ | ⟨-, rfl⟩ | ⟨-, rfl⟩ := blockStep_next h
  case inr.inl =>
    obtain ⟨data, hs, rfl, -, hinputs, hcycle, -⟩ := rxStep_next hrx
    exact ⟨hinputs, hcycle⟩
  all_goals exact ⟨rfl, rfl⟩

theorem performAction_inputs {a : Action} {s t : State} (h : performAction a s = .next t) :
    t.host.inputs = s.host.inputs ∧ t.host.cycle = s.host.cycle := by
  obtain ⟨-, h⟩ := performAction_next h
  cases a with
  | load | rd | reset | arrive => rw [h]; exact ⟨rfl, rfl⟩
  | unload n =>
    rw [h, unloadAction]
    split <;> exact ⟨rfl, rfl⟩
  | peek x =>
    rw [h, peekAction]
    split <;> exact ⟨rfl, rfl⟩
  | poke x v =>
    rw [h, pokeAction]
    split <;> exact ⟨rfl, rfl⟩
  | wr reg v =>
    obtain ⟨-, rfl⟩ | ⟨-, ⟨i, -, hexec⟩ | ⟨-, rfl⟩⟩ := h
    · exact ⟨rfl, rfl⟩
    · obtain ⟨rfl, -⟩ := exec_next hexec
      exact ⟨rfl, rfl⟩
    · exact ⟨rfl, rfl⟩
  | evt => obtain ⟨-, rfl⟩ | ⟨-, rfl⟩ := h <;> exact ⟨rfl, rfl⟩

/-- The inputs to come, those listed and those that repeat (log entry 5). -/
def State.toCome (s : State) : List Input := s.host.inputs ++ s.host.cycle

theorem pending_subset_toCome (s : State) : s.pending ⊆ s.toCome := by
  rw [State.pending]
  split
  · exact List.subset_append_right _ _
  · next hinputs =>
    rw [State.toCome, hinputs]
    exact List.subset_append_left _ _

theorem toCome_popInput_subset (s : State) : s.popInput.toCome ⊆ s.toCome :=
  List.append_subset.mpr
    ⟨List.Subset.trans (List.tail_subset _) (pending_subset_toCome s), List.subset_append_right _ _⟩

theorem toCome_taken_subset (s : State) : s.taken.toCome ⊆ s.toCome := by
  rw [State.taken]
  split
  · exact toCome_popInput_subset s
  · exact List.Subset.refl _

/-- No step adds an input. -/
theorem toCome_step_subset {s t : State} (h : step s = .next t) : t.toCome ⊆ s.toCome := by
  obtain ⟨-, hown⟩ | ⟨a, -, ha⟩ := step_next_cases h
  · obtain ⟨hinputs, hcycle⟩ := blockStep_inputs hown
    rw [State.toCome, hinputs, hcycle]
    exact toCome_taken_subset s
  · obtain ⟨hinputs, hcycle⟩ := performAction_inputs ha
    rw [State.toCome, hinputs, hcycle]
    exact toCome_popInput_subset s

/-- The action a step performs is among the inputs to come. -/
theorem exists_mem_toCome_of_performs {s : State} {a : Action} (h : s.Performs a) :
    ∃ i ∈ s.toCome, i = .atOnce a ∨ i = .inTurn a := by
  obtain hnext | ⟨hnext, -⟩ := h
  · exact ⟨_, pending_subset_toCome s (List.mem_of_mem_head? hnext), .inl rfl⟩
  · exact ⟨_, pending_subset_toCome s (List.mem_of_mem_head? hnext), .inr rfl⟩

/-- No host action comes: a tick, an event or an arriving frame. -/
def Input.IsNoHostAction (i : Input) : Prop :=
  i = .tick ∨ ∃ a, (i = .atOnce a ∨ i = .inTurn a) ∧ (a = .evt ∨ ∃ f, a = .arrive f)

/-- With no host action to come, the action a step performs is an event or an arriving frame. -/
theorem evt_or_arrive_of_performs {s : State} {a : Action} (h : s.Performs a)
    (hinputs : ∀ i ∈ s.toCome, i.IsNoHostAction) : a = .evt ∨ ∃ f, a = .arrive f := by
  obtain ⟨i, hi, hia⟩ := exists_mem_toCome_of_performs h
  obtain rfl | ⟨a', ha', hquiet⟩ := hinputs i hi
  · simp at hia
  · obtain rfl : a' = a := by obtain rfl | rfl := hia <;> simpa [eq_comm] using ha'
    exact hquiet

/-- With no host action to come no step sets `ERR` (R202). -/
theorem step_err_of_no_host_action {s t : State} (h : step s = .next t)
    (hinputs : ∀ i ∈ s.toCome, i.IsNoHostAction) : t.block.err = s.block.err := by
  obtain ⟨-, hown⟩ | ⟨a, hperf, ha⟩ := step_next_cases h
  · exact (blockStep_err hown).trans (by rw [State.block_taken])
  · obtain rfl | ⟨f, rfl⟩ := evt_or_arrive_of_performs hperf hinputs
    all_goals exact (performAction_err ha nofun).2 id

/-- What every step keeps holds after a run. -/
theorem run_preserves {P : State → Prop} (hstep : ∀ s t, P s → step s = .next t → P t) (k : Nat) {s t : State}
    (hs : P s) (h : Sys2Proof.core.run k s = .next t) : P t := by
  induction k generalizing s with
  | zero =>
    cases h
    exact hs
  | succ k ih =>
    replace h := (Host.Core.run.eq_2 Sys2Proof.core s k).symm.trans h
    split at h
    · next u hu => exact ih (hstep s u hs hu) h
    all_goals cases h

/-- Settles O54: every step keeps that no host action is to come and that `ERR` is clear. -/
theorem receivedFramesNeverSetErr : Obligations.ReceivedFramesNeverSetErr := by
  intro s hinputs hclear k t hrun
  have hkeeps (s t : State) (hs : (∀ i ∈ s.toCome, i.IsNoHostAction) ∧ ¬ s.GoneWrong) (hstep : step s = .next t) :
      (∀ i ∈ t.toCome, i.IsNoHostAction) ∧ ¬ t.GoneWrong :=
    ⟨fun i hi => hs.1 i (toCome_step_subset hstep hi), by
      rw [State.GoneWrong, step_err_of_no_host_action hstep hs.1]
      exact hs.2⟩
  exact (run_preserves hkeeps k ⟨hinputs, hclear⟩ hrun).2

end Sys2Proof.Machine
end

section
/-! "later operations run as if it were clear" (60_exceptions.md R203): no step but a read of `STATUS` reads `ERR`. Setting
`ERR` beforehand changes at most what is left in `ERR`: of an operation of the block (`Block.IgnoresErr`), of what an action
does to the state (`State.IgnoresErr`), and of the outcome of a step (`Outcome.IgnoresErr`). -/

namespace Sys2Proof.Machine

/-- A choice between `f` and `g`, when setting `ERR` before either is setting it after and the test does not read it. -/
theorem exists_setErr_ite {α β : Type} {setErr : Bool → α → α} {setErr' : Bool → β → β} {f g : α → β} {test : α → Prop}
    [DecidablePred test] (hf : ∀ a e, ∃ e', f (setErr e a) = setErr' e' (f a))
    (hg : ∀ a e, ∃ e', g (setErr e a) = setErr' e' (g a)) (htest : ∀ a e, test (setErr e a) ↔ test a) (a : α) (e : Bool) :
    ∃ e', (if test (setErr e a) then f (setErr e a) else g (setErr e a)) = setErr' e' (if test a then f a else g a) := by
  simp only [htest]
  split
  · exact hf a e
  · exact hg a e

/-! ### Operations of the block -/

def Block.withErr (e : Bool) (b : Block) : Block := { b with err := e }

/-- The operation does the same whatever `ERR` is, up to that bit. -/
def Block.IgnoresErr (f : Block → Block) : Prop := ∀ b e, ∃ e', f (b.withErr e) = (f b).withErr e'

namespace Block.IgnoresErr

theorem raiseErr : IgnoresErr Block.raiseErr := fun _ _ => ⟨true, rfl⟩

theorem comp {f g : Block → Block} (hg : IgnoresErr g) (hf : IgnoresErr f) : IgnoresErr fun b => g (f b) := by
  intro b e
  obtain ⟨e₁, h₁⟩ := hf b e
  obtain ⟨e₂, h₂⟩ := hg (f b) e₁
  exact ⟨e₂, (congrArg g h₁).trans h₂⟩

theorem ite {f g : Block → Block} {test : Block → Prop} [DecidablePred test] (hf : IgnoresErr f) (hg : IgnoresErr g)
    (htest : ∀ b e, test (b.withErr e) ↔ test b) : IgnoresErr fun b => if test b then f b else g b :=
  exists_setErr_ite hf hg htest

theorem setPhase (p : Phase) : IgnoresErr fun b => b.setPhase p := fun _ e => ⟨e, rfl⟩

theorem deliver (data : List Byte) : IgnoresErr fun b => b.deliver data := fun _ e => ⟨e, rfl⟩

theorem load (data : List Byte) : IgnoresErr fun b => b.load data := .ite (.deliver data) .raiseErr fun _ _ => .rfl

theorem writeReg (reg : Byte) (v : Half) : IgnoresErr fun b => b.writeReg reg v := by
  intro b e
  simp only [Block.writeReg]
  split
  case h_5 => exact raiseErr b e
  all_goals exact ⟨e, rfl⟩

theorem evtWhileBusy : IgnoresErr Block.evtWhileBusy := by
  intro b e
  cases h : b.params.evtWhileBusy with
  | ignored => exact ⟨e, by rw [evtWhileBusy_of_ignored h]; exact evtWhileBusy_of_ignored h⟩
  | latched => exact ⟨e, by rw [evtWhileBusy_of_latched h]; exact evtWhileBusy_of_latched h⟩

theorem endUpdate : IgnoresErr Block.endUpdate :=
  .ite (fun _ e => ⟨e, rfl⟩) (.setPhase .idle) fun _ _ => .rfl

theorem afterRx (data : List Byte) : IgnoresErr fun b => b.afterRx data :=
  .ite (.comp .endUpdate fun _ e => ⟨e, rfl⟩) (.setPhase _) fun _ _ => .rfl

theorem mkarp : IgnoresErr Block.mkarp := fun _ e => ⟨e, by simp only [Block.mkarp, withErr, setFb, setRlen]⟩

theorem mkecho : IgnoresErr Block.mkecho := fun _ e => ⟨e, by simp only [Block.mkecho, withErr, setFb, setRlen]⟩

theorem setRlen (v : Half) : IgnoresErr fun b => b.setRlen v := fun _ e => ⟨e, rfl⟩

theorem setVerdict (c : FrameClass) (send : Bool) : IgnoresErr fun b => b.setVerdict c send := fun _ e => ⟨e, rfl⟩

theorem answer (c : FrameClass) : IgnoresErr fun b => b.answer c := by
  cases c with
  | arp => simpa only [Block.answer] using comp (setVerdict .arp true) mkarp
  | echo => simpa only [Block.answer] using comp (setVerdict .echo true) mkecho
  | notMe => simpa only [Block.answer] using comp (setVerdict .notMe false) (setRlen 0)
  | ipOther => simpa only [Block.answer] using comp (setVerdict .ipOther false) (setRlen 0)

theorem answer_classify : IgnoresErr fun b => b.answer b.classify := by
  intro b e
  have hclassify : (b.withErr e).classify = b.classify := rfl
  simp only [hclassify]
  exact answer b.classify b e

theorem afterStep : IgnoresErr Block.afterStep := fun _ e => ⟨e, rfl⟩

theorem csum : IgnoresErr Block.csum := .ite (fun _ e => ⟨e, rfl⟩) .raiseErr fun _ _ => .rfl

theorem effect (i : Instr) : IgnoresErr (effect i) := by
  cases i with
  | csum => exact .csum
  | step => exact .answer_classify
  | mkarp => exact .mkarp
  | mkecho => exact .mkecho
  | frameArp => exact .answer .arp
  | frameEcho => exact .answer .echo
  | frameIpOther => exact .answer .ipOther
  | frameNotMe => exact .answer .notMe
  | isarp | isipme | isecho | update => exact fun _ e => ⟨e, rfl⟩

end Block.IgnoresErr

/-- Of the registers only `STATUS` shows `ERR` (10_state.md R25, R30). -/
theorem readReg_withErr (b : Block) (e : Bool) {reg : Byte} (hreg : reg ≠ 0x01) :
    (b.withErr e).readReg reg = b.readReg reg := by
  simp only [Block.readReg]
  split
  case h_1 hstatus => exact absurd (BitVec.eq_of_toNat_eq hstatus) hreg
  all_goals rfl

/-! ### What an action does -/

def State.withErr (e : Bool) (s : State) : State := s.onBlock (Block.withErr e)

/-- What is done to the state is the same whatever `ERR` is, up to that bit. -/
def State.IgnoresErr (f : State → State) : Prop := ∀ s e, ∃ e', f (s.withErr e) = (f s).withErr e'

namespace State.IgnoresErr

theorem onBlock {f : Block → Block} (hf : Block.IgnoresErr f) : IgnoresErr fun s => s.onBlock f := by
  intro s e
  obtain ⟨e', h⟩ := hf s.block e
  exact ⟨e', congrArg (State.mk · s.host) h⟩

/-- Recording an event that does not show `ERR`. -/
theorem emit {f : State → State} (hf : IgnoresErr f) (ev : Event) : IgnoresErr fun s => (f s).emit ev := by
  intro s e
  obtain ⟨e', h⟩ := hf s e
  exact ⟨e', congrArg (State.emit · ev) h⟩

theorem ite {f g : State → State} {test : State → Prop} [DecidablePred test] (hf : IgnoresErr f) (hg : IgnoresErr g)
    (htest : ∀ s e, test (s.withErr e) ↔ test s) : IgnoresErr fun s => if test s then f s else g s :=
  exists_setErr_ite hf hg htest

theorem unload (n : Nat) : IgnoresErr fun s => unloadAction s n :=
  .ite (fun _ e => ⟨e, rfl⟩) (.onBlock .raiseErr) fun _ _ => .rfl

theorem peek (a : Nat) : IgnoresErr fun s => peekAction s a :=
  .ite (fun _ e => ⟨e, rfl⟩) (.emit (.onBlock .raiseErr) _) fun _ _ => .rfl

theorem poke (a : Nat) (v : Byte) : IgnoresErr fun s => pokeAction s a v :=
  .ite (fun _ e => ⟨e, rfl⟩) (.onBlock .raiseErr) fun _ _ => .rfl

theorem rd {reg : Byte} (hreg : reg ≠ 0x01) : IgnoresErr fun s => rdAction s reg :=
  fun s e => ⟨e, congrArg (fun v => (s.withErr e).emit (.read reg v)) (readReg_withErr s.block e hreg)⟩

theorem reset (contents : List Byte) : IgnoresErr fun s => resetAction s contents := fun _ _ => ⟨false, rfl⟩

/-- `rx` took the frame `f` from the queue and returned `data`. -/
theorem consume (f : QueuedFrame) (data : List Byte) : IgnoresErr fun s =>
    (({ s with host := s.host.consume f } : State).onBlock fun b => b.afterRx data).emit (.rx data.length) :=
  .emit (fun s e => onBlock (.afterRx data) { s with host := s.host.consume f } e) _

theorem tx : IgnoresErr txStep := fun _ e => ⟨e, rfl⟩

theorem arrive (f : QueuedFrame) : IgnoresErr fun s => arriveAction s f := fun _ e => ⟨e, rfl⟩

end State.IgnoresErr

/-! ### What a step does -/

/-- The outcome with `ERR` set to `e` in the next state. -/
def Outcome.withErr (e : Bool) : Host.Outcome State Fault Refusal → Host.Outcome State Fault Refusal
  | .next t => .next (t.withErr e)
  | .fault r => .fault r
  | .refused r => .refused r

/-- The outcome is the same whatever `ERR` is, up to that bit. -/
def Outcome.IgnoresErr (f : State → Host.Outcome State Fault Refusal) : Prop :=
  ∀ s e, ∃ e', f (s.withErr e) = Outcome.withErr e' (f s)

namespace Outcome.IgnoresErr

theorem next {f : State → State} (hf : State.IgnoresErr f) : IgnoresErr fun s => .next (f s) := by
  intro s e
  obtain ⟨e', h⟩ := hf s e
  exact ⟨e', congrArg Host.Outcome.next h⟩

theorem onBlock {f : Block → Block} (hf : Block.IgnoresErr f) : IgnoresErr fun s => .next (s.onBlock f) :=
  .next (.onBlock hf)

theorem refused (r : Refusal) : IgnoresErr fun _ => .refused r := fun _ e => ⟨e, rfl⟩

/-- A case analysis of what `view` shows of the state, which does not show `ERR`. -/
theorem of_view {α : Type} (view : State → α) (hview : ∀ s e, view (s.withErr e) = view s)
    {f : State → Host.Outcome State Fault Refusal} (hcases : ∀ x, ∃ g, IgnoresErr g ∧ ∀ s, view s = x → f s = g s) :
    IgnoresErr f := by
  intro s e
  obtain ⟨g, hg, hfg⟩ := hcases (view s)
  rw [hfg s rfl, hfg (s.withErr e) (hview s e)]
  exact hg s e

/-- A case analysis of the phase. -/
theorem of_phase {f : State → Host.Outcome State Fault Refusal}
    (hcases : ∀ p, ∃ g, IgnoresErr g ∧ ∀ s : State, s.block.phase = p → f s = g s) : IgnoresErr f :=
  .of_view (fun s => s.block.phase) (fun _ _ => rfl) hcases

theorem exec (i : Instr) : IgnoresErr (exec i) := by
  refine .of_phase fun p => ?_
  by_cases hidle : i = .update → p = .idle
  · exact ⟨_, .onBlock (.effect i), fun s hphase => exec_eq i s fun hi => hphase.trans (hidle hi)⟩
  · obtain ⟨rfl, hrunning⟩ := Classical.not_imp.mp hidle
    obtain ⟨next, rfl⟩ : ∃ next, p = .run next := by cases p <;> simp_all
    exact ⟨_, .refused _, fun s => exec_update_running s next⟩

theorem command (v : Half) : IgnoresErr fun s => commandAction s v := by
  simp only [commandAction]
  cases decodeCommand (commandCode v) with
  | none => exact .onBlock .raiseErr
  | some i => exact .exec i

theorem evt : IgnoresErr evtAction := .of_phase fun
  | .idle => ⟨_, .exec .update, fun _ => evtAction_of_idle⟩
  | .run _ => ⟨_, .onBlock .evtWhileBusy, fun _ => evtAction_of_run⟩

theorem ite {f g : State → Host.Outcome State Fault Refusal} {test : State → Prop} [DecidablePred test]
    (hf : IgnoresErr f) (hg : IgnoresErr g) (htest : ∀ s e, test (s.withErr e) ↔ test s) :
    IgnoresErr fun s => if test s then f s else g s :=
  exists_setErr_ite hf hg htest

/-- An action of the outside that is no read of `STATUS`. -/
theorem performAction {a : Action} (ha : a ≠ .rd 0x01) : IgnoresErr (performAction a) := by
  refine .ite (.refused _) ?_ fun _ _ => .rfl
  cases a with
  | load data => exact .onBlock (.load data)
  | unload n => exact .next (.unload n)
  | peek x => exact .next (.peek x)
  | poke x v => exact .next (.poke x v)
  | rd reg => exact .next (.rd (by simpa using ha))
  | wr reg v => exact .ite (.command v) (.onBlock (.writeReg reg v)) fun _ _ => .rfl
  | evt => exact .evt
  | reset contents => exact .next (.reset contents)
  | arrive f => exact .next (.arrive f)

/-- The `rx` of a running `UPDATE`, by what is queued and the room there is for it. -/
theorem rx : IgnoresErr rxStep := by
  refine .of_view (fun s => (s.host.queue, s.block.cap)) (fun _ _ => rfl) fun ⟨queue, cap⟩ => ?_
  cases queue with
  | nil =>
    exact ⟨_, .next (.emit (.onBlock (.afterRx [])) (.rx 0)), fun s h => by simp only [rxStep, (Prod.mk.inj h).1]⟩
  | cons f rest =>
    by_cases hshort : f.crcValid = true ∧ f.bytes.length < 4
    · exact ⟨_, .refused .rxDeclaredLengthBelow4, fun s h => by simp [rxStep, (Prod.mk.inj h).1, hshort]⟩
    · refine ⟨_, .next (.consume f (f.received cap)), fun s h => ?_⟩
      obtain ⟨hqueue, rfl⟩ := Prod.mk.inj h
      cases hcrc : f.crcValid with
      | false => simp [rxStep, hqueue, QueuedFrame.received, hcrc]
      | true => simp_all [rxStep, QueuedFrame.received]

/-- The `STEP` of a running `UPDATE`. -/
theorem frame : IgnoresErr frameStep := by
  have hframe : frameStep = fun s => .next (s.onBlock fun b => (b.answer b.classify).afterStep) := by
    funext s
    simp only [frameStep, exec_fetchFrame]
    rfl
  rw [hframe]
  exact .onBlock (.comp .afterStep .answer_classify)

theorem blockStep : IgnoresErr blockStep := .of_phase fun
  | .idle => ⟨_, .next (f := id) fun _ e => ⟨e, rfl⟩, fun s h => by simp only [Machine.blockStep, h, id]⟩
  | .run .rx => ⟨_, .rx, fun s h => by simp only [Machine.blockStep, h]⟩
  | .run (.load data) =>
    ⟨_, .next (.onBlock (.comp (.setPhase (.run .step)) (.deliver data))),
      fun s h => by simp only [Machine.blockStep, h, loadStep]⟩
  | .run .step => ⟨_, .frame, fun s h => by simp only [Machine.blockStep, h]⟩
  | .run .tx => ⟨_, .next .tx, fun s h => by simp only [Machine.blockStep, h]⟩

end Outcome.IgnoresErr

theorem taken_withErr (s : State) (e : Bool) : (s.withErr e).taken = s.taken.withErr e := by
  have hpending : (s.withErr e).pending = s.pending := rfl
  rw [State.taken, State.taken, hpending]
  split <;> rfl

/-- A step that is no read of `STATUS` does not read `ERR` (R203). -/
theorem step_withErr {s t : State} (h : step s = .next t) (hread : ¬ s.Performs (.rd 0x01)) (e : Bool) :
    ∃ e', step (s.withErr e) = .next (t.withErr e') := by
  obtain ⟨hturn, hown⟩ | ⟨a, hperf, ha⟩ := step_next_cases h
  · obtain ⟨e', heq⟩ := Outcome.IgnoresErr.blockStep s.taken e
    rw [hown, ← taken_withErr] at heq
    exact ⟨e', (step_of_blockTurn (s := s.withErr e) hturn).trans heq⟩
  · have hne : a ≠ .rd 0x01 := fun hrd => hread (hrd ▸ hperf)
    obtain ⟨e', heq⟩ := Outcome.IgnoresErr.performAction hne s.popInput e
    rw [ha] at heq
    exact ⟨e', (step_of_performs (s := s.withErr e) hperf).trans heq⟩

/-- Settles O52: from the state with `ERR` clear, the step with `ERR` set to 1. -/
theorem errDoesNotStopTheBlock : Obligations.ErrDoesNotStopTheBlock := fun s _ hread hstep =>
  step_withErr (s := s.withErr false) hstep hread true

end Sys2Proof.Machine
end

section
/-! The block at rest (70_reset_and_hazards.md R231): every effect of the block's own step is one of a running `UPDATE`,
so while IDLE that step is the identity (log entry 6). -/

namespace Sys2Proof.Machine

/-- The block's own step does nothing while `PHASE` is IDLE. -/
theorem blockStep_of_idle {s : State} (hidle : s.block.phase = .idle) : blockStep s = .next s := by
  simp only [blockStep, hidle]

/-- Settles O31: it is the block's turn, and the block, its phase untouched by the tick, does nothing. -/
theorem idleBlockDoesNothing : Obligations.IdleBlockDoesNothing := by
  intro s hidle hturn
  have hidle_taken : s.taken.block.phase = .idle := (congrArg Block.phase (State.block_taken s)).trans hidle
  calc
    step s = blockStep s.taken := step_of_blockTurn hturn
    _ = .next s.taken := blockStep_of_idle hidle_taken

end Sys2Proof.Machine
end
